-- ==== Sys2Proof/Word.lean ====
section
/-! DEFINITION. The value types of 00_scope.md R7 (u8, u32, u64) and the two eight-word groups built from u32: the
accumulator H[0..7] (10_state.md R14) and the working variables a..h of one compression (41_compressor.md R69). -/

namespace Sys2Proof

/-- u8 of R7. -/
abbrev Byte := BitVec 8

/-- u32 of R7: an accumulator word, a schedule word, a command word, a register value. -/
abbrev Word := BitVec 32

/-- u64 of R7: the bit-length counter. -/
abbrev Count := BitVec 64

/-- The accumulator H[0..7] of 10_state.md R13 and R14: eight u32 words. -/
abbrev Accumulator := Vector Word 8

/-- The working variables a..h of 41_compressor.md R69 and R70: local to one compression (10_state.md R20). -/
structure Working where
  a : Word
  b : Word
  c : Word
  d : Word
  e : Word
  f : Word
  g : Word
  h : Word
  deriving DecidableEq, Repr

end Sys2Proof
end

