-- ==== Sys2Proof/Syntax.lean ====
section
/-! DEFINITION. The commands of spec/opcode_table.json, one constructor a row (30_encoding.md R47). -/

namespace Sys2Proof

/-- A command of the engine. -/
inductive Instr where
  /-- INIT: initialize() (42_commands.md R77). -/
  | init
  /-- ABSORB d: absorb of the one byte d (42_commands.md R78). -/
  | absorb (data : Byte)
  /-- FINAL: finalize() (42_commands.md R80 to R87). -/
  | final
  deriving DecidableEq, Repr

end Sys2Proof
end

