-- ==== Sys2Proof/WellFormed.lean ====
section
/-! DEFINITION. When a command word's fields, and a command, are well formed: the one format C of 30_encoding.md R45, the
opcode map of R47 and the three ways to be illegal of R49. -/

namespace Sys2Proof

/-- The fields of format C (R45): OP[31:28], RSV[27:8], DATA[7:0]. -/
structure Fields where
  op   : BitVec 4
  rsv  : BitVec 20
  data : Byte
  deriving DecidableEq, Repr

/-- OP of INIT, ABSORB and FINAL (R47). -/
abbrev Config.opInit : BitVec 4 := 0x1#4
abbrev Config.opAbsorb : BitVec 4 := 0x2#4
abbrev Config.opFinal : BitVec 4 := 0x3#4

/-- R49, first way: OP 0x0 and 0x4 to 0xF name no command. -/
def Fields.opAssigned (f : Fields) : Bool :=
  f.op == Config.opInit || f.op == Config.opAbsorb || f.op == Config.opFinal

/-- R49, second way: RSV must be 0. -/
def Fields.rsvZero (f : Fields) : Bool := f.rsv == 0#20

/-- R49, third way: DATA must be 0 unless the command is ABSORB. -/
def Fields.dataAllowed (f : Fields) : Bool := f.op == Config.opAbsorb || f.data == 0#8

/-- The fields of a command word (R45, R49): all three checks pass. -/
def Fields.wellFormed (f : Fields) : Bool := f.opAssigned && f.rsvZero && f.dataAllowed

/-- Every command at every operand value its type holds is legal: INIT and FINAL have no operand, and every byte is plain
data to ABSORB (42_commands.md R78, "every byte value 0x00 to 0xff, including 0x80, is plain data"). The checks that can
fail are those on a word's fields above. -/
def Instr.wellFormed : Instr → Bool
  | .init => true
  | .absorb _ => true
  | .final => true

end Sys2Proof
end

