-- ==== Sys2Proof/Decode.lean ====
section
/-! DEFINITION. The decoder of command words, total on all 2^32 words and rejecting by name (30_encoding.md R45 to R49), and
after it the encoder, written from the same map (R47). -/

namespace Sys2Proof

/-- Why a word is ILLEGAL: the three ways of R49, in its order. A word that is illegal in several ways carries the first.
The engine keeps no such reason (R99: the fault's info is not recorded): the names are the model's own (log entry 9). -/
inductive IllegalWord where
  /-- OP is 0x0 or 0x4 to 0xF. -/
  | opUnassigned
  /-- RSV is not 0. -/
  | rsvNonzero
  /-- DATA of an INIT or FINAL is not 0. -/
  | dataNonzero
  deriving DecidableEq, Repr

/-- What a command word decodes to (R48): one command, or ILLEGAL. -/
inductive Decoded where
  | command (i : Instr)
  | illegal (why : IllegalWord)
  deriving DecidableEq, Repr

/-- The fields of a word (R45). -/
def Fields.ofWord (w : Word) : Fields :=
  { op := w.extractLsb' 28 4, rsv := w.extractLsb' 8 20, data := w.extractLsb' 0 8 }

/-- The word made of the three fields (R45). -/
def Fields.toWord (f : Fields) : Word := (f.op ++ f.rsv ++ f.data : BitVec 32)

/-- The command that well-formed fields select (R47, R48). -/
def Fields.select (f : Fields) : Decoded :=
  if f.op = Config.opInit then .command .init
  else if f.op = Config.opAbsorb then .command (.absorb f.data)
  else .command .final

/-- Decoding of fields (R48, R49): the checks in R49's order, then the opcode map. -/
def Fields.decode (f : Fields) : Decoded :=
  if !f.opAssigned then .illegal .opUnassigned
  else if !f.rsvZero then .illegal .rsvNonzero
  else if !f.dataAllowed then .illegal .dataNonzero
  else f.select

/-- The decoder (R48): a total function of the 32-bit word. -/
def decode (w : Word) : Decoded := (Fields.ofWord w).decode

/-- The command a decoding gives, none for ILLEGAL. -/
def Decoded.instr? : Decoded → Option Instr
  | .command i => some i
  | .illegal _ => none

/-- A command read from the low `nbits` bits of `w` as spec/opcode_table.json numbers them, the bits above them 0. A
command is one 32-bit word (R45), written to CMD as one value (20_memory.md R34: no byte lanes inside the engine). -/
def decodeTableWord (nbits w : Nat) : Option Instr :=
  (decode (BitVec.ofNat 32 (w % 2 ^ nbits))).instr?

/-- The fields of a command (R47). -/
def Instr.fields : Instr → Fields
  | .init => { op := Config.opInit, rsv := 0#20, data := 0#8 }
  | .absorb d => { op := Config.opAbsorb, rsv := 0#20, data := d }
  | .final => { op := Config.opFinal, rsv := 0#20, data := 0#8 }

/-- The encoder: the one word of a command (R47, R51). -/
def encode (i : Instr) : Word := i.fields.toWord

end Sys2Proof
end

