-- ==== Sys2Proof/Config.lean ====
section
/-! DEFINITION. The parameters of 00_scope.md R6. The two OPEN ones that a rule depends on are not constants here, so that
no proof can lean on a value of theirs: BASE is State's field `baseSlot` (log entry 1), N_INST is the length of a `Platform`
(log entry 13). LAT_ABSORB, LAT_COMPRESS and LAT_FINAL are not modelled: no rule depends on them (R120, log entry 12). -/

namespace Sys2Proof

/-- Block size in bytes (R6): 16 words, 512 bits. -/
abbrev Config.blockBytes : Nat := 64

/-- Block size in bits (R6), the amount 42_commands.md R78 adds to BITLEN. -/
abbrev Config.blockBits : Nat := 512

/-- Message-schedule words per block, and rounds per block (R6). -/
abbrev Config.rounds : Nat := 64

/-- Register window size in bytes (R6); BASE is a multiple of it (20_memory.md R29). -/
abbrev Config.windowBytes : Nat := 64

/-- The window's place at reset, in units of 64 bytes. DESIGN CHOICE (log entry 1), unsafe: the spec leaves BASE open; no
statement rests on this value. -/
abbrev Config.resetBaseSlot : Nat := 0

end Sys2Proof
end

