-- ==== Sys2Proof/Machine/Functions.lean ====
section
/-! DEFINITION. The pure functions of 40_functions.md R53 to R63 and the byte-order helpers of 00_scope.md R9. Each is total,
writes no state, sets no flag and raises no fault. -/

namespace Sys2Proof.Machine

/-- `x + y` on u32 (R53): modulo 2^32, the carry recorded nowhere. -/
abbrev add32 (x y : Word) : Word := x + y

/-- `x + y` on u64 (R54), used for BITLEN only: modulo 2^64. -/
abbrev add64 (x y : Count) : Count := x + y

/-- `x ⊕ y` (R55). -/
abbrev xor32 (x y : Word) : Word := x ^^^ y

/-- `x ∧ y` (R55). -/
abbrev and32 (x y : Word) : Word := x &&& y

/-- `x ∨ y` (R55). -/
abbrev or32 (x y : Word) : Word := x ||| y

/-- `¬x` (R55), within 32 bits. -/
abbrev not32 (x : Word) : Word := ~~~x

/-- `x ≫ n` (R56): logical right shift, zero fill. -/
abbrev shr32 (x : Word) (n : Nat) : Word := x >>> n

/-- `rotr(x, n)` (R57), n in 1..31: `(x ≫ n) ∨ ((x << (32 − n)) mod 2^32)`. -/
def rotr (x : Word) (n : Nat) : Word := or32 (shr32 x n) (x <<< (32 - n))

/-- `Ch(x, y, z)` (R58). -/
def ch (x y z : Word) : Word := xor32 (and32 x y) (and32 (not32 x) z)

/-- `Maj(x, y, z)` (R59). -/
def maj (x y z : Word) : Word := xor32 (xor32 (and32 x y) (and32 x z)) (and32 y z)

/-- `Σ0(x)` (R60). -/
def bigSigma0 (x : Word) : Word := xor32 (xor32 (rotr x 2) (rotr x 13)) (rotr x 22)

/-- `Σ1(x)` (R61). -/
def bigSigma1 (x : Word) : Word := xor32 (xor32 (rotr x 6) (rotr x 11)) (rotr x 25)

/-- `σ0(x)` (R62). -/
def smallSigma0 (x : Word) : Word := xor32 (xor32 (rotr x 7) (rotr x 18)) (shr32 x 3)

/-- `σ1(x)` (R63). -/
def smallSigma1 (x : Word) : Word := xor32 (xor32 (rotr x 17) (rotr x 19)) (shr32 x 10)

/-- `be32(b0, b1, b2, b3)` (R9): four bytes, most significant first. -/
def be32 (b0 b1 b2 b3 : Byte) : Word := (b0 ++ b1 ++ b2 ++ b3 : BitVec 32)

/-- `bytes_be32(w)` (R9): most significant byte first. -/
def bytesBe32 (w : Word) : List Byte :=
  [w.extractLsb' 24 8, w.extractLsb' 16 8, w.extractLsb' 8 8, w.extractLsb' 0 8]

/-- `bytes_be64(v)` (R9): most significant byte first. -/
def bytesBe64 (v : Count) : List Byte :=
  [v.extractLsb' 56 8, v.extractLsb' 48 8, v.extractLsb' 40 8, v.extractLsb' 32 8,
   v.extractLsb' 24 8, v.extractLsb' 16 8, v.extractLsb' 8 8, v.extractLsb' 0 8]

/-- `zeros(n)` (R7): n bytes of 0x00. -/
def zeros (n : Nat) : List Byte := List.replicate n 0x00#8

end Sys2Proof.Machine
end

