-- ==== Sys2Proof/Machine/Compressor.lean ====
section
/-! DEFINITION. The message-schedule expander and the Block Compressor (41_compressor.md R66 to R75): a pure function of the
accumulator and one block. W, a..h, T1 and T2 are local to it (10_state.md R20). A block is a list of bytes: both callers give
it 64 in every state (42_commands.md R78, R84), and what it makes of other lists has no meaning (log entry 8). -/

namespace Sys2Proof.Machine

/-- `B[i]`. -/
def blockByte (B : List Byte) (i : Nat) : Byte := B.getD i 0x00#8

/-- `W[i]` for i in 0..15 (R67; byte order of 20_memory.md R30). -/
def blockWord (B : List Byte) (i : Nat) : Word :=
  be32 (blockByte B (4 * i)) (blockByte B (4 * i + 1)) (blockByte B (4 * i + 2)) (blockByte B (4 * i + 3))

/-- Schedule load (R67): W[0..16). -/
def loadSchedule (B : List Byte) : List Word := (List.range 16).map (blockWord B)

/-- `W[i]` of a schedule. -/
def scheduleWord (W : List Word) (i : Nat) : Word := W.getD i 0x00000000#32

/-- W[r] from the words before it (R68): `σ1(W[r−2]) + W[r−7] + σ0(W[r−15]) + W[r−16]`. -/
def nextScheduleWord (W : List Word) (r : Nat) : Word :=
  add32 (add32 (add32 (smallSigma1 (scheduleWord W (r - 2))) (scheduleWord W (r - 7)))
    (smallSigma0 (scheduleWord W (r - 15)))) (scheduleWord W (r - 16))

/-- Schedule expansion (R68): `n` more words, in increasing r. -/
def expandSchedule : Nat → List Word → List Word
  | 0, W => W
  | n + 1, W => expandSchedule n (W ++ [nextScheduleWord W W.length])

/-- The message schedule W[0..64) of a block (R67, R68). -/
def schedule (B : List Byte) : List Word := expandSchedule 48 (loadSchedule B)

/-- `T1` of a round (R70). -/
def roundT1 (v : Working) (k w : Word) : Word :=
  add32 (add32 (add32 (add32 v.h (bigSigma1 v.e)) (ch v.e v.f v.g)) k) w

/-- `T2` of a round (R70). -/
def roundT2 (v : Working) : Word := add32 (bigSigma0 v.a) (maj v.a v.b v.c)

/-- The simultaneous shift that ends a round (R70). -/
def roundShift (v : Working) (t1 t2 : Word) : Working :=
  { a := add32 t1 t2, b := v.a, c := v.b, d := v.c, e := add32 v.d t1, f := v.e, g := v.f, h := v.g }

/-- One round with round constant `k` and schedule word `w` (R70). -/
def compressRound (v : Working) (k w : Word) : Working := roundShift v (roundT1 v k w) (roundT2 v)

/-- Round r of a compression with schedule `W` (R71): it uses K[r] and W[r]. -/
def compressRoundAt (W : List Word) (v : Working) (r : Nat) : Working :=
  compressRound v (roundConstants.getD r 0x00000000#32) (scheduleWord W r)

/-- Working copy (R69). -/
def workingCopy (H : Accumulator) : Working :=
  { a := H[0], b := H[1], c := H[2], d := H[3], e := H[4], f := H[5], g := H[6], h := H[7] }

/-- Rounds 0, 1, ..., 63 in that order (R71). -/
def compressRounds (W : List Word) (v : Working) : Working :=
  (List.range Config.rounds).foldl (compressRoundAt W) v

/-- Feed-forward (R72). -/
def feedForward (H : Accumulator) (v : Working) : Accumulator :=
  #v[add32 H[0] v.a, add32 H[1] v.b, add32 H[2] v.c, add32 H[3] v.d,
     add32 H[4] v.e, add32 H[5] v.f, add32 H[6] v.g, add32 H[7] v.h]

/-- The compression of one block (R73). -/
def compressBlock64 (H : Accumulator) (B : List Byte) : Accumulator :=
  feedForward H (compressRounds (schedule B) (workingCopy H))

/-- `Compress(Hin, B)` (R66, R73): B is exactly 64 bytes. -/
def compress (H : Accumulator) (B : List Byte) : Accumulator :=
  if B.length = Config.blockBytes then compressBlock64 H B else H

end Sys2Proof.Machine
end

