-- ==== Sys2Proof/Machine/State.lean ====
section
/-! DEFINITION. The state of one engine instance (10_state.md R13), the accesses and resets that reach it, what it answers,
and the state after reset (R27). -/

namespace Sys2Proof.Machine

/-- PHASE, the lifecycle state (10_state.md R17). -/
inductive Phase where
  | fresh
  | absorbing
  | finalized
  deriving DecidableEq, Repr

/-- The faults the engine records (60_exceptions.md R99). BUS_ERROR is not among them: it is an answer to the requester
(`Response.busError`) and nothing in the engine records it. None of these stops the machine (R101). -/
inductive EngineFault where
  /-- A CMD write whose word decodes to ILLEGAL, in any phase. -/
  | illegalCommand
  /-- ABSORB in FINALIZED. -/
  | absorbAfterFinal
  /-- FINAL in FINALIZED. -/
  | finalAfterFinal
  deriving DecidableEq, Repr

/-- The one byte store that commands write: the pending buffer BUF, oldest byte first (10_state.md R15, 20_memory.md R28).
The engine loads from and stores to no other memory (R28), so this is the whole of its memory (log entry 10). -/
abbrev Memory := List Byte

/-- The canonical form of BUF between two commands (10_state.md R15): at most 63 bytes. -/
def Memory.wf (m : Memory) : Bool := decide (m.length < 64)

/-- A host access (00_scope.md R10): `MemRead(addr, n)` or `MemWrite(addr, n, v)`. `value` is v's low 32 bits, all that a
register can take: a write of any other width than 4 has no effect (43_bus_access.md R89). -/
inductive Access where
  | read (addr nbytes : Nat)
  | write (addr nbytes : Nat) (value : Word)
  deriving DecidableEq, Repr

/-- What reaches the engine: a host access, or an assertion of the reset input (70_reset_and_hazards.md R113) together with
the accesses being served or waiting at that moment, which it abandons (R114). -/
inductive Event where
  | access (a : Access)
  | reset (abandoned : List Access)
  deriving DecidableEq, Repr

/-- What the engine answers to an access to its window: the value read, the completion of a write, or a bus error
(43_bus_access.md R89 to R97). How the bus carries an answer is the platform's (R121; log entry 3). -/
inductive Response where
  | data (value : Word)
  | done
  | busError
  deriving DecidableEq, Repr

/-- The architectural state of one engine instance (10_state.md R13), the first seven fields, and the model's own three:
the window's place, what is still to be served, and what has been answered. -/
structure State where
  /-- H[0..7], the accumulator (R14). -/
  h : Accumulator
  /-- BUF, the pending buffer (R15). -/
  buf : Memory
  /-- BITLEN, the bit-length counter (R16). -/
  bitlen : Count
  /-- PHASE (R17). -/
  phase : Phase
  /-- ERR_MISUSE (R18). -/
  errMisuse : Bool
  /-- ERR_ILLEGAL (R18). -/
  errIllegal : Bool
  /-- CAUSE (R18). -/
  cause : BitVec 4
  /-- The platform's BASE (20_memory.md R29) as a count of 64-byte slots: the model's own, DESIGN CHOICE (log entry 1). -/
  baseSlot : Nat
  /-- Accesses and resets to come, in the order they take effect (20_memory.md R39): the model's own (log entry 2). -/
  inputs : List Event
  /-- Answers given so far, oldest first (70_reset_and_hazards.md R121): the model's own (log entry 3). -/
  responses : List Response
  deriving DecidableEq, Repr

/-- The reasons to stop: none. Every fault of this engine is recorded and the engine goes on serving (60_exceptions.md
R101); "No item of this spec is stuck: no access can hang the engine" (93_implementation_defined.md; R121). -/
inductive Fault where
  deriving DecidableEq, Repr

/-- The reasons to refuse. -/
inductive Refusal where
  /-- Raised by an arm of `exec` whose instruction has no meaning yet, by name; safe. No arm does: all three commands
  have their meaning. -/
  | notModelled (mnemonic : String)
  deriving DecidableEq, Repr

/-- BASE (20_memory.md R29): a multiple of 64. -/
def State.base (s : State) : Nat := Config.windowBytes * s.baseSlot

/-- The state right after reset (10_state.md R27, 70_reset_and_hazards.md R113). The last three fields are the model's own:
DESIGN CHOICE (log entries 1, 2 and 3). -/
def State.reset : State :=
  { h := initialHash
    buf := []
    bitlen := 0#64
    phase := .fresh
    errMisuse := false
    errIllegal := false
    cause := 0#4
    baseSlot := Config.resetBaseSlot
    inputs := []
    responses := [] }

end Sys2Proof.Machine
end

