-- ==== Sys2Proof/Machine/Ops.lean ====
section
/-! DEFINITION. The named operations on the state: one writer per field, appending to and draining BUF, counting into
BITLEN, running the Block Compressor on H (41_compressor.md R74), the Fresh state, and raising a fault (60_exceptions.md R100), the
one operation every faulting command goes through. There is no return from a fault (R103). -/

namespace Sys2Proof.Machine

/-- `H <- v`. -/
def State.setAccumulator (s : State) (v : Accumulator) : State := { s with h := v }

/-- `BUF <- v`. -/
def State.setBuf (s : State) (v : Memory) : State := { s with buf := v }

/-- `BITLEN <- v`. -/
def State.setBitlen (s : State) (v : Count) : State := { s with bitlen := v }

/-- `PHASE <- v`. -/
def State.setPhase (s : State) (v : Phase) : State := { s with phase := v }

/-- `ERR_MISUSE <- v`. -/
def State.setErrMisuse (s : State) (v : Bool) : State := { s with errMisuse := v }

/-- `ERR_ILLEGAL <- v`. -/
def State.setErrIllegal (s : State) (v : Bool) : State := { s with errIllegal := v }

/-- `CAUSE <- v`. -/
def State.setCause (s : State) (v : BitVec 4) : State := { s with cause := v }

/-- What is still to be served. -/
def State.setInputs (s : State) (v : List Event) : State := { s with inputs := v }

/-- One more answer to the host. -/
def State.respond (s : State) (r : Response) : State := { s with responses := s.responses ++ [r] }

/-- `ERR_MISUSE <- 0; ERR_ILLEGAL <- 0; CAUSE <- 0` (42_commands.md R77; 60_exceptions.md R103). -/
def State.clearFaults (s : State) : State := ((s.setErrMisuse false).setErrIllegal false).setCause 0#4

/-- The source's `Fresh` state, which INIT (42_commands.md R77) and reset (70_reset_and_hazards.md R113) both make. -/
def State.makeFresh (s : State) : State :=
  ((((s.setAccumulator initialHash).setBuf []).setBitlen 0#64).setPhase .fresh).clearFaults

/-- `H <- Compress(H, B)` (41_compressor.md R74). -/
def State.compressBlock (s : State) (B : List Byte) : State := s.setAccumulator (compress s.h B)

/-- `BITLEN <- BITLEN + n`, modulo 2^64 (40_functions.md R54). -/
def State.addBits (s : State) (n : Nat) : State := s.setBitlen (add64 s.bitlen (BitVec.ofNat 64 n))

/-- The block of a full BUF (42_commands.md R78): compress it, count 512 bits, empty BUF. -/
def State.drainBlock (s : State) : State :=
  ((s.compressBlock s.buf).addBits Config.blockBits).setBuf []

/-- `BUF <- BUF ‖ [d]`, and the drain when that fills it (42_commands.md R78). -/
def State.appendByte (s : State) (d : Byte) : State :=
  if (s.setBuf (s.buf ++ [d])).buf.length = Config.blockBytes then (s.setBuf (s.buf ++ [d])).drainBlock
  else s.setBuf (s.buf ++ [d])

/-- The CAUSE code of a fault (60_exceptions.md R99). -/
def EngineFault.code : EngineFault → BitVec 4
  | .illegalCommand => 1#4
  | .absorbAfterFinal => 2#4
  | .finalAfterFinal => 3#4

/-- The flag a fault sets (60_exceptions.md R100, first line). -/
def State.setFaultFlag (s : State) (f : EngineFault) : State :=
  match f with
  | .illegalCommand => s.setErrIllegal true
  | .absorbAfterFinal => s.setErrMisuse true
  | .finalAfterFinal => s.setErrMisuse true

/-- `raise F` (60_exceptions.md R100): set the flag; record the code if CAUSE is 0, so the first fault since INIT or reset is
kept; no other state changes. -/
def State.raise (s : State) (f : EngineFault) : State :=
  if (s.setFaultFlag f).cause = 0#4 then (s.setFaultFlag f).setCause f.code else s.setFaultFlag f

end Sys2Proof.Machine
end

