-- ==== Sys2Proof/Machine/Finalize.lean ====
section
/-! DEFINITION. FINAL, the padding and finalize state machine (42_commands.md R80 to R87). -/

namespace Sys2Proof.Machine

/-- The number of zero bytes (42_commands.md R81): `if P < 56 then 55 − P else 119 − P`. -/
def padZeros (p : Nat) : Nat := if p < 56 then 55 - p else 119 - p

/-- TAIL before the length field (42_commands.md R81): `BUF ‖ [0x80] ‖ zeros(z)`. -/
def paddedTail (buf : Memory) : List Byte := buf ++ [0x80#8] ++ zeros (padZeros buf.length)

/-- TAIL with the length field (42_commands.md R83; 20_memory.md R31). -/
def finalTail (buf : Memory) (bitlen : Count) : List Byte := paddedTail buf ++ bytesBe64 bitlen

/-- The compressions of FINAL (42_commands.md R84): the first block, and the second when |TAIL| = 128. -/
def State.compressTail (s : State) (tail : List Byte) : State :=
  if tail.length = 128 then (s.compressBlock (tail.take 64)).compressBlock ((tail.drop 64).take 64)
  else s.compressBlock (tail.take 64)

/-- Length accounting (42_commands.md R82, 90_conflicts.md C1): `BITLEN <- BITLEN + 8 × P`. -/
def State.countTail (s : State) : State := s.addBits (8 * s.buf.length)

/-- The steps of FINAL after the single-use check (42_commands.md R81 to R85). -/
def State.finish (s : State) : State :=
  ((s.countTail.compressTail (finalTail s.buf s.countTail.bitlen)).setBuf []).setPhase .finalized

/-- FINAL (42_commands.md R80, R87): in FINALIZED it raises FINAL_AFTER_FINAL and does nothing else. -/
def execFinal (s : State) : Host.Outcome State Fault Refusal :=
  if s.phase = .finalized then .next (s.raise .finalAfterFinal) else .next s.finish

end Sys2Proof.Machine
end

