-- ==== Sys2Proof/Machine/Lifecycle.lean ====
section
/-! DEFINITION. The meanings of INIT and ABSORB (42_commands.md R77 to R79). -/

namespace Sys2Proof.Machine

/-- INIT (42_commands.md R77): legal in every phase, no error conditions. -/
def execInit (s : State) : Host.Outcome State Fault Refusal := .next s.makeFresh

/-- ABSORB d (42_commands.md R78): in FINALIZED it raises ABSORB_AFTER_FINAL and does nothing else. -/
def execAbsorb (d : Byte) (s : State) : Host.Outcome State Fault Refusal :=
  if s.phase = .finalized then .next (s.raise .absorbAfterFinal)
  else .next ((s.appendByte d).setPhase .absorbing)

end Sys2Proof.Machine
end

