-- ==== Sys2Proof/Machine/Flags.lean ====
section
/-! DEFINITION. STATUS, the one word of status bits (10_state.md R24). The engine has no condition codes or arithmetic flags
(R23): no operation reports a carry or an overflow. -/

namespace Sys2Proof.Machine

/-- `enc(PHASE)` (10_state.md R17, R24). -/
def Phase.code : Phase → Word
  | .fresh => 0#32
  | .absorbing => 1#32
  | .finalized => 2#32

/-- One status bit as a u32. -/
def flagWord (b : Bool) : Word := (BitVec.ofBool b).setWidth 32

/-- STATUS (10_state.md R24): `zext_32(CAUSE) << 16 | zext_32(|BUF|) << 8 | ERR_ILLEGAL << 3 | ERR_MISUSE << 2 | enc(PHASE)`. -/
def State.status (s : State) : Word :=
  (s.cause.setWidth 32 <<< 16) ||| (BitVec.ofNat 32 s.buf.length <<< 8) ||| (flagWord s.errIllegal <<< 3)
    ||| (flagWord s.errMisuse <<< 2) ||| s.phase.code

end Sys2Proof.Machine
end

