-- ==== Sys2Proof/Machine/Operands.lean ====
section
/-! DEFINITION. The operand forms of this engine: a command's one operand is the byte of its word, taken by the decoder
(30_encoding.md R46), so the forms left are those of a host access: admission to the window (43_bus_access.md R89) and the
register an offset names (20_memory.md R29). -/

namespace Sys2Proof.Machine

/-- The registers of the window (20_memory.md R29). -/
inductive Register where
  | cmd
  | status
  | reserved
  | digest (i : Fin 8)
  deriving DecidableEq, Repr

/-- The register at an admitted offset (20_memory.md R29): 0x00 CMD, 0x04 STATUS, 0x20 + 4i DIGESTi, the rest reserved. -/
def registerAt (off : Nat) : Register :=
  if off = 0x00 then .cmd
  else if off = 0x04 then .status
  else if off < 0x20 then .reserved
  else .digest (Fin.ofNat 8 ((off - 0x20) / 4))

/-- How the engine takes an access (43_bus_access.md R89). -/
inductive Admission where
  /-- Not an access to the window: not the engine's. -/
  | outside
  /-- To the window, and not admitted: BUS_ERROR. -/
  | busError
  /-- Admitted, at this offset from BASE. -/
  | admitted (off : Nat)
  deriving DecidableEq, Repr

/-- Address of an access. -/
def Access.addr : Access → Nat
  | .read a _ => a
  | .write a _ _ => a

/-- Width of an access in bytes. -/
def Access.nbytes : Access → Nat
  | .read _ n => n
  | .write _ n _ => n

/-- Whether an access is to the window: BASE ≤ a ≤ BASE + 0x3F (43_bus_access.md R89). DEDUCED: an access is placed by its
first byte's address (log entry 5). -/
def Access.inWindow (a : Access) (base : Nat) : Bool := decide (base ≤ a.addr ∧ a.addr ≤ base + 0x3F)

/-- Admission (43_bus_access.md R89): width 4 and (a − BASE) a multiple of 4. An aligned 4-byte access never runs past
BASE + 0x3F. -/
def Access.admission (a : Access) (base : Nat) : Admission :=
  if !a.inWindow base then .outside
  else if a.nbytes = 4 ∧ (a.addr - base) % 4 = 0 then .admitted (a.addr - base)
  else .busError

end Sys2Proof.Machine
end

