-- ==== Sys2Proof/Machine/Bus.lean ====
section
/-! DEFINITION. Host accesses to the register window (43_bus_access.md R89 to R98), the dispatch of a command word
(42_commands.md R76) and the reset input (70_reset_and_hazards.md R113, R114): one event, one atomic step. -/

namespace Sys2Proof.Machine

/-- DIGESTi (10_state.md R26, 43_bus_access.md R95): H[i] in FINALIZED, else 0. -/
def State.digestWord (s : State) (i : Fin 8) : Word :=
  if s.phase = .finalized then s.h[i] else 0x00000000#32

/-- The value a read of a register returns (43_bus_access.md R92, R93, R95, R97). -/
def State.readRegister (s : State) (r : Register) : Word :=
  match r with
  | .cmd => 0x00000000#32
  | .status => s.status
  | .reserved => 0x00000000#32
  | .digest i => s.digestWord i

/-- Execution of a command word (42_commands.md R76): the fault of an ILLEGAL word, or the command. -/
def executeWord (w : Word) (s : State) : Host.Outcome State Fault Refusal :=
  match decode w with
  | .illegal _ => .next (s.raise .illegalCommand)
  | .command i => exec i s

/-- A write of a register (43_bus_access.md R91, R94, R96, R97): only CMD takes it. -/
def writeRegister (r : Register) (v : Word) (s : State) : Host.Outcome State Fault Refusal :=
  match r with
  | .cmd => executeWord v s
  | .status => .next s
  | .reserved => .next s
  | .digest _ => .next s

/-- An admitted access at offset `off` (43_bus_access.md R91 to R97). The answer stands in the state in which a command
runs; no command reads it. -/
def serveAdmitted (a : Access) (off : Nat) (s : State) : Host.Outcome State Fault Refusal :=
  match a with
  | .read _ _ => .next (s.respond (.data (s.readRegister (registerAt off))))
  | .write _ _ v => writeRegister (registerAt off) v (s.respond .done)

/-- A host access (43_bus_access.md R89): not the engine's, a bus error with no effect, or admitted. -/
def serveAccess (a : Access) (s : State) : Host.Outcome State Fault Refusal :=
  match a.admission s.base with
  | .outside => .next s
  | .busError => .next (s.respond .busError)
  | .admitted off => serveAdmitted a off s

/-- What one event does (70_reset_and_hazards.md R113, R114; 43_bus_access.md R90). A reset sets every state element of 10_state.md
R13; the accesses it abandons are not served and get no answer from the engine (log entry 4). -/
def serveEvent (e : Event) (s : State) : Host.Outcome State Fault Refusal :=
  match e with
  | .access a => serveAccess a s
  | .reset _ => .next s.makeFresh

/-- Taking the next event and serving it. With nothing to serve the engine is idle and holds its whole state
(60_exceptions.md R112). -/
def serveNext (s : State) : Host.Outcome State Fault Refusal :=
  match s.inputs with
  | [] => .next s
  | e :: rest => serveEvent e (s.setInputs rest)

/-- The access `WR CMD, w` (30_encoding.md R51): MemWrite(BASE + 0x00, 4, w). -/
def commandWrite (base : Nat) (w : Word) : Access := .write (base + 0x00) 4 w

end Sys2Proof.Machine
end

