-- ==== Sys2Proof/Machine/Step.lean ====
section
/-! DEFINITION. One step: one event, served completely (00_scope.md R11, 43_bus_access.md R90). -/

namespace Sys2Proof.Machine

/-- One step of the engine. -/
def step (s : State) : Host.Outcome State Fault Refusal := serveNext s

/-- `s` with a command word next to be served: the engine has no program and no program counter (10_state.md R22); the
host brings each command as a write to CMD (43_bus_access.md R91), so the word is put at the head of `inputs`. -/
def State.withFetchWord (s : State) (nbits w : Nat) : State :=
  s.setInputs (.access (commandWrite s.base (BitVec.ofNat 32 (w % 2 ^ nbits))) :: s.inputs)

end Sys2Proof.Machine
end

