-- ==== Sys2Proof/Machine/HostLines.lean ====
section
/-! DEFINITION. The host's lines and the accesses each stands for: the assembly syntax of 30_encoding.md R51 and the
pseudo-instructions of R52 (also 42_commands.md R79, R88; 43_bus_access.md R98). The engine knows none of this: it is notation (D23). -/

namespace Sys2Proof.Machine

/-- A line of a host program. -/
inductive HostLine where
  /-- An empty line, or a comment alone. -/
  | blank
  /-- A command line: `INIT`, `ABSORB <byte>` or `FINAL` (R51). -/
  | command (i : Instr)
  /-- `.word <u32>`, or `WR CMD, <word>` (R51): the word itself, written to CMD. -/
  | word (w : Word)
  /-- `RD STATUS` (R51). -/
  | readStatus
  /-- `RD DIGEST<i>` (R51). -/
  | readDigest (i : Fin 8)
  /-- `ABSORBS ...` (R52). -/
  | absorbs (bytes : List Byte)
  /-- `HASH ...` (R52). -/
  | hash (bytes : List Byte)
  /-- `RDDIGEST` (R52). -/
  | readWholeDigest
  deriving DecidableEq, Repr

/-- `ABSORBS b0, ..., bn-1` as commands: one ABSORB a byte, in order; none for n = 0 (R52, 42_commands.md R79). -/
def absorbCommands (bytes : List Byte) : List Instr := bytes.map Instr.absorb

/-- `HASH bytes` as commands: INIT, ABSORBS, FINAL (R52, 42_commands.md R88). -/
def hashCommands (bytes : List Byte) : List Instr := .init :: (absorbCommands bytes ++ [.final])

/-- A bare command line stands for `WR CMD, <its encoding>` (R51). -/
def commandAccess (base : Nat) (i : Instr) : Access := commandWrite base (encode i)

/-- `RD STATUS`: MemRead(BASE + 0x04, 4). -/
def statusRead (base : Nat) : Access := .read (base + 0x04) 4

/-- `RD DIGEST<i>`: MemRead(BASE + 0x20 + 4·i, 4). -/
def digestRead (base : Nat) (i : Fin 8) : Access := .read (base + 0x20 + 4 * i.val) 4

/-- `RDDIGEST`: `RD DIGEST0` ... `RD DIGEST7` (R52). -/
def digestReads (base : Nat) : List Access := [0, 1, 2, 3, 4, 5, 6, 7].map (digestRead base)

/-- The accesses a line stands for (R51, R52). -/
def HostLine.accesses (base : Nat) (l : HostLine) : List Access :=
  match l with
  | .blank => []
  | .command i => [commandAccess base i]
  | .word w => [commandWrite base w]
  | .readStatus => [statusRead base]
  | .readDigest i => [digestRead base i]
  | .absorbs bytes => (absorbCommands bytes).map (commandAccess base)
  | .hash bytes => (hashCommands bytes).map (commandAccess base)
  | .readWholeDigest => digestReads base

/-- A host program's accesses: line after line, in order (the host sequences commands, 10_state.md R22). -/
def hostAccesses (base : Nat) (ls : List HostLine) : List Access := (ls.map (HostLine.accesses base)).flatten

/-- The answers that are read values (70_reset_and_hazards.md R121: a run's observation). -/
def readValues : List Response → List Word
  | [] => []
  | .data v :: rs => v :: readValues rs
  | .done :: rs => readValues rs
  | .busError :: rs => readValues rs

/-- The digest's bytes from the eight values read of DIGEST0..7 (20_memory.md R44). -/
def bytesOfWords (ws : List Word) : List Byte := (ws.map bytesBe32).flatten

/-- The digest as words: H[0..7]. -/
def accumulatorWords (H : Accumulator) : List Word := H.toList

/-- The digest as 32 bytes (42_commands.md R86, 20_memory.md R32). -/
def accumulatorBytes (H : Accumulator) : List Byte := bytesOfWords (accumulatorWords H)

end Sys2Proof.Machine
end

