-- ==== Sys2Proof/Machine/Assembler.lean ====
section
/-! DEFINITION. The assembler's text (30_encoding.md R51, R52): one line of characters to a `HostLine`, none for a line the syntax
does not give. What the syntax leaves open (white space, a `;` inside quotes, leading zeros) is log entry 14. -/

namespace Sys2Proof.Machine

/-- The parts of a line. -/
inductive AsmToken where
  /-- A mnemonic, register name or number, in capitals (mnemonics are case-insensitive). -/
  | name (cs : List Char)
  | comma
  /-- A character literal. -/
  | char (c : Char)
  /-- A quoted text. -/
  | text (cs : List Char)
  deriving DecidableEq, Repr

/-- Where the reader is in a line: outside quotes with a name begun, inside a quoted text, after a literal's opening
apostrophe, or after its character. -/
inductive LexMode where
  | plain (name : List Char)
  | quoted (text : List Char)
  | literalOpen
  | literalClose (c : Char)
  deriving DecidableEq, Repr

/-- The double quote. -/
def quoteMark : Char := Char.ofNat 34

/-- The apostrophe. -/
def apostrophe : Char := Char.ofNat 39

/-- White space between tokens. -/
def isSpace (c : Char) : Bool := c == ' ' || c == '\t' || c == '\r'

/-- The name read so far, if any. -/
def endName (acc : List Char) : List AsmToken :=
  match acc with
  | [] => []
  | c :: cs => [.name (c :: cs)]

/-- The tokens of a line; none if a quote is left open. A `;` outside quotes starts a comment. -/
def lexLine : List Char → LexMode → Option (List AsmToken)
  | [], .plain acc => some (endName acc)
  | [], .quoted _ => none
  | [], .literalOpen => none
  | [], .literalClose _ => none
  | c :: cs, .plain acc =>
    if c = ';' then some (endName acc)
    else if isSpace c then (lexLine cs (.plain [])).map (endName acc ++ ·)
    else if c = ',' then (lexLine cs (.plain [])).map (endName acc ++ [.comma] ++ ·)
    else if c = quoteMark then (lexLine cs (.quoted [])).map (endName acc ++ ·)
    else if c = apostrophe then (lexLine cs .literalOpen).map (endName acc ++ ·)
    else lexLine cs (.plain (acc ++ [c.toUpper]))
  | c :: cs, .quoted txt =>
    if c = quoteMark then (lexLine cs (.plain [])).map (AsmToken.text txt :: ·)
    else lexLine cs (.quoted (txt ++ [c]))
  | c :: cs, .literalOpen => lexLine cs (.literalClose c)
  | c :: cs, .literalClose d =>
    if c = apostrophe then (lexLine cs (.plain [])).map (AsmToken.char d :: ·) else none

/-- The value of a digit in a base up to 16; letters are capitals. -/
def digitValue (base : Nat) (c : Char) : Option Nat :=
  let v := if '0' ≤ c ∧ c ≤ '9' then c.toNat - '0'.toNat
    else if 'A' ≤ c ∧ c ≤ 'F' then c.toNat - 'A'.toNat + 10
    else base
  if v < base then some v else none

/-- The value of digits, most significant first, on top of `acc`. -/
def digitsValue (base : Nat) : List Char → Nat → Option Nat
  | [], acc => some acc
  | c :: cs, acc =>
    match digitValue base c with
    | none => none
    | some v => digitsValue base cs (acc * base + v)

/-- A number: `0x` and hexadecimal digits, or decimal digits (R51). -/
def numberValue : List Char → Option Nat
  | [] => none
  | '0' :: 'X' :: c :: cs => digitsValue 16 (c :: cs) 0
  | c :: cs => digitsValue 10 (c :: cs) 0

/-- A number below `2 ^ w`. -/
def numberOperand (w : Nat) (cs : List Char) : Option (BitVec w) :=
  match numberValue cs with
  | none => none
  | some v => if v < 2 ^ w then some (BitVec.ofNat w v) else none

/-- The byte of an ASCII character (R51). -/
def asciiByte (c : Char) : Option Byte :=
  if c.toNat < 128 then some (BitVec.ofNat 8 c.toNat) else none

/-- `<byte>` (R51): 0x00..0xFF, 0..255 or a character literal. -/
def byteOperand : AsmToken → Option Byte
  | .name cs => numberOperand 8 cs
  | .comma => none
  | .char c => asciiByte c
  | .text _ => none

/-- `<b0>, <b1>, ..., <bn-1>` (R52), n at least 1. -/
def byteOperands : List AsmToken → Option (List Byte)
  | [] => none
  | [t] => (byteOperand t).map fun b => [b]
  | t :: .comma :: ts =>
    match byteOperand t, byteOperands ts with
    | some b, some bs => some (b :: bs)
    | _, _ => none
  | _ :: _ :: _ => none

/-- The bytes of an ABSORBS or HASH line (R52): nothing, one quoted ASCII text, or a list of bytes. -/
def bytesOperand : List AsmToken → Option (List Byte)
  | [] => some []
  | [.text cs] => cs.mapM asciiByte
  | ts => byteOperands ts

/-- `STATUS` or `DIGEST<i>` after RD (R51). -/
def readOperand (cs : List Char) : Option HostLine :=
  if cs = ['S', 'T', 'A', 'T', 'U', 'S'] then some .readStatus
  else
    match cs with
    | ['D', 'I', 'G', 'E', 'S', 'T', c] =>
      match digitValue 8 c with
      | some v => some (.readDigest (Fin.ofNat 8 v))
      | none => none
    | _ => none

/-- The line of a mnemonic and its operands (R51, R52). -/
def mnemonicLine (m : List Char) (ts : List AsmToken) : Option HostLine :=
  if m = ['I', 'N', 'I', 'T'] then
    (match ts with | [] => some (.command .init) | _ => none)
  else if m = ['A', 'B', 'S', 'O', 'R', 'B'] then
    (match ts with | [t] => (byteOperand t).map fun b => .command (.absorb b) | _ => none)
  else if m = ['F', 'I', 'N', 'A', 'L'] then
    (match ts with | [] => some (.command .final) | _ => none)
  else if m = ['.', 'W', 'O', 'R', 'D'] then
    (match ts with | [.name cs] => (numberOperand 32 cs).map .word | _ => none)
  else if m = ['W', 'R'] then
    (match ts with
      | [.name r, .comma, .name cs] => if r = ['C', 'M', 'D'] then (numberOperand 32 cs).map .word else none
      | _ => none)
  else if m = ['R', 'D'] then
    (match ts with | [.name r] => readOperand r | _ => none)
  else if m = ['A', 'B', 'S', 'O', 'R', 'B', 'S'] then (bytesOperand ts).map .absorbs
  else if m = ['H', 'A', 'S', 'H'] then (bytesOperand ts).map .hash
  else if m = ['R', 'D', 'D', 'I', 'G', 'E', 'S', 'T'] then
    (match ts with | [] => some .readWholeDigest | _ => none)
  else none

/-- A line's tokens to its meaning. -/
def tokensLine : List AsmToken → Option HostLine
  | [] => some .blank
  | .name m :: ts => mnemonicLine m ts
  | .comma :: _ => none
  | .char _ :: _ => none
  | .text _ :: _ => none

/-- One line of assembly text (R51, R52). -/
def assembleLine (cs : List Char) : Option HostLine :=
  match lexLine cs (.plain []) with
  | none => none
  | some ts => tokensLine ts

/-- Lines of assembly text to the accesses they stand for. -/
def assembleLines (base : Nat) (ls : List (List Char)) : Option (List Access) :=
  (ls.mapM assembleLine).map (hostAccesses base)

end Sys2Proof.Machine
end

