-- ==== Sys2Proof/Machine/Platform.lean ====
section
/-! DEFINITION. Several engine instances (60_exceptions.md R110): each has its own window and its own complete state, and they share
only the constant tables. N_INST, an OPEN parameter, is the length of the list; which instance moves next is an argument,
so that every interleaving is admitted. -/

namespace Sys2Proof.Machine

/-- The instances of a platform. -/
abbrev Platform := List State

/-- Each instance has a window of its own (60_exceptions.md R110). -/
def Platform.windowsDistinct (p : Platform) : Prop := (p.map State.baseSlot).Nodup

/-- An access brought to one instance: it waits there (43_bus_access.md R90) if it is to that instance's window. -/
def State.present (a : Access) (s : State) : State :=
  if a.inWindow s.base then s.setInputs (s.inputs ++ [.access a]) else s

/-- An access brought to the platform's bus reaches the instance whose window holds its address, and no other. -/
def Platform.present (p : Platform) (a : Access) : Platform := p.map (State.present a)

/-- One step of instance `k`. -/
def Platform.stepAt (p : Platform) (k : Nat) : Host.Outcome Platform Fault Refusal :=
  match p[k]? with
  | none => .next p
  | some s =>
    match step s with
    | .next t => .next (p.set k t)
    | .fault r => .fault r
    | .refused r => .refused r

end Sys2Proof.Machine
end

