-- ==== Sys2Proof/Safety.lean ====
section
/-! DEFINITION. The terms claims are stated in: the invariant of the state, agreement of two states on the spec's elements,
what a host can see, SHA-256 of a whole message as the spec's rules define it in one piece, runs, and sequences of commands. -/

namespace Sys2Proof.Machine

/-- What holds of every state a run from reset reaches (10_state.md R15, R17, R18, R19, R24; 60_exceptions.md R99, R100):
BUF holds at most 63 bytes; FRESH means the initial values; BITLEN counts whole blocks before FINAL, whole bytes after; BUF
is empty in FINALIZED; CAUSE is 0 exactly when no fault is recorded, and its flag is set; misuse is recorded only in FINALIZED. -/
structure State.Inv (s : State) : Prop where
  bufShort : Memory.wf s.buf = true
  freshInitial : s.phase = .fresh → s.h = initialHash ∧ s.buf = [] ∧ s.bitlen = 0#64
  absorbingBlocks : s.phase = .absorbing → s.bitlen.toNat % 512 = 0
  finalizedDrained : s.phase = .finalized → s.buf = [] ∧ s.bitlen.toNat % 8 = 0
  causeNone : s.cause = 0#4 ↔ (s.errMisuse = false ∧ s.errIllegal = false)
  causeIllegal : s.cause = 1#4 → s.errIllegal = true
  causeMisuse : s.cause = 2#4 ∨ s.cause = 3#4 → s.errMisuse = true
  causeRange : s.cause.toNat ≤ 3
  misuseFinalized : s.errMisuse = true → s.phase = .finalized

/-- Two states agree on every element of 10_state.md R13. -/
def State.SameEngine (s t : State) : Prop :=
  s.h = t.h ∧ s.buf = t.buf ∧ s.bitlen = t.bitlen ∧ s.phase = t.phase ∧
    s.errMisuse = t.errMisuse ∧ s.errIllegal = t.errIllegal ∧ s.cause = t.cause

/-- Two states agree on H, BUF, BITLEN and PHASE: everything but the fault record (60_exceptions.md R101). -/
def State.SameHash (s t : State) : Prop :=
  s.h = t.h ∧ s.buf = t.buf ∧ s.bitlen = t.bitlen ∧ s.phase = t.phase

/-- Two states agree on the fault record (10_state.md R18). -/
def State.SameFaults (s t : State) : Prop :=
  s.errMisuse = t.errMisuse ∧ s.errIllegal = t.errIllegal ∧ s.cause = t.cause

/-- Two states agree on the model's own fields. -/
def State.SameOutside (s t : State) : Prop :=
  s.baseSlot = t.baseSlot ∧ s.inputs = t.inputs ∧ s.responses = t.responses

/-- What a host can tell of a state that is not FINALIZED (10_state.md R13, last column): PHASE, |BUF| and the fault record,
and the model's own fields. It does not see H, the bytes of BUF, or BITLEN. -/
def State.SameToHost (s t : State) : Prop :=
  s.phase = t.phase ∧ s.buf.length = t.buf.length ∧ s.SameFaults t ∧ s.SameOutside t

/-- `n` blocks of a byte sequence compressed in order (42_commands.md R84, R87). -/
def hashBlocks : Nat → Accumulator → List Byte → Accumulator
  | 0, H, _ => H
  | n + 1, H, bs => hashBlocks n (compress H (bs.take 64)) (bs.drop 64)

/-- A whole message padded: 0x80, the zeros that bring the length to 56 modulo 64, the bit length modulo 2^64 as 8 bytes. -/
def padMessage (m : List Byte) : List Byte :=
  m ++ [0x80#8] ++ zeros ((119 - m.length % 64) % 64) ++ bytesBe64 (BitVec.ofNat 64 (8 * m.length))

/-- SHA-256 of a whole message in one piece, from the same functions: pad, then compress every block from H0. It carries
the true bit length for messages of fewer than 2^61 bytes (93_implementation_defined.md U2; log entry 16). -/
def sha256 (m : List Byte) : Accumulator :=
  hashBlocks ((padMessage m).length / 64) initialHash (padMessage m)

/-- The engine holds message `m` (10_state.md R19; 42_commands.md R85, R86): before FINAL, its whole blocks are compressed into
H, its last bytes are in BUF, BITLEN counts the blocks, and PHASE is FRESH exactly when `m` is empty; in FINALIZED, H is
`sha256 m`, BUF is empty and BITLEN is its bit length, modulo 2^64 (log entry 16). -/
structure State.Holds (s : State) (m : List Byte) : Prop where
  accumulator : s.phase ≠ .finalized → s.h = hashBlocks (m.length / 64) initialHash m
  buffer : s.phase ≠ .finalized → s.buf = m.drop (64 * (m.length / 64))
  counter : s.phase ≠ .finalized → s.bitlen = BitVec.ofNat 64 (512 * (m.length / 64))
  freshness : s.phase ≠ .finalized → (s.phase = .fresh ↔ m = [])
  digest : s.phase = .finalized → s.h = sha256 m
  drained : s.phase = .finalized → s.buf = []
  total : s.phase = .finalized → s.bitlen = BitVec.ofNat 64 (8 * m.length)

/-- The message after the next step, if the engine holds `m` before it (00_scope.md R12: every byte ABSORBed since the last
INIT or reset): only INIT, reset and an accepted ABSORB change it. -/
def State.messageAfter (s : State) (m : List Byte) : List Byte :=
  match s.inputs with
  | [] => m
  | .reset _ :: _ => []
  | .access (.read _ _) :: _ => m
  | .access (.write addr n w) :: _ =>
    if addr = s.base ∧ n = 4 then
      match decode w with
      | .illegal _ => m
      | .command .init => []
      | .command (.absorb d) => if s.phase = .finalized then m else m ++ [d]
      | .command .final => m
    else m

/-- p_0..p_63 (40_functions.md R65): the first 64 primes. -/
def firstPrimes : List Nat :=
  [2, 3, 5, 7, 11, 13, 17, 19, 23, 29, 31, 37, 41, 43, 47, 53, 59, 61, 67, 71, 73, 79, 83, 89, 97, 101, 103, 107, 109, 113, 127, 131] ++
  [137, 139, 149, 151, 157, 163, 167, 173, 179, 181, 191, 193, 197, 199, 211, 223, 227, 229, 233, 239, 241, 251, 257, 263, 269, 271, 277, 281, 283, 293, 307, 311]

/-- Commands one after the other (42_commands.md R76, R79), stopping at a stop. -/
def execAll : List Instr → State → Host.Outcome State Fault Refusal
  | [], s => .next s
  | i :: is, s =>
    match exec i s with
    | .next t => execAll is t
    | .fault r => .fault r
    | .refused r => .refused r

/-- `n` steps, stopping at a stop. -/
def runSteps : Nat → State → Host.Outcome State Fault Refusal
  | 0, s => .next s
  | n + 1, s =>
    match step s with
    | .next t => runSteps n t
    | .fault r => .fault r
    | .refused r => .refused r

/-- The whole run of what is to be served (70_reset_and_hazards.md R121): one step an event. -/
def runInputs (s : State) : Host.Outcome State Fault Refusal := runSteps s.inputs.length s

end Sys2Proof.Machine
end

