-- ==== Sys2Proof/Certificates/Slice0/Obligations.lean ====
section
/-! DEFINITION. The statements for the provers. Each names the rule of spec/ it formalises; where it rests on a convention of
the model, the log entry. -/

open Sys2Proof Sys2Proof.Machine

/-! ## Encoding (30_encoding.md) -/

/-- R48: the decoder is R48's chain, on all 2^32 words. -/
def Obligations.DecoderFollowsRuleChain : Prop :=
  ∀ w : Word, (decode w).instr? =
    if w = 0x10000000#32 then some .init
    else if w.extractLsb' 8 24 = 0x200000#24 then some (.absorb (w.extractLsb' 0 8))
    else if w = 0x30000000#32 then some .final
    else none

/-- R49: which words are illegal, and that writing one to CMD changes STATUS's fault fields and nothing else of the engine. -/
def Obligations.IllegalWordsAreReported : Prop :=
  (∀ w : Word, (decode w).instr? = none ↔
    ((w.extractLsb' 28 4 = 0x0#4 ∨ 0x4 ≤ (w.extractLsb' 28 4).toNat) ∨
      ((w.extractLsb' 28 4 = 0x1#4 ∨ w.extractLsb' 28 4 = 0x2#4 ∨ w.extractLsb' 28 4 = 0x3#4) ∧
        w.extractLsb' 8 20 ≠ 0#20) ∨
      ((w.extractLsb' 28 4 = 0x1#4 ∨ w.extractLsb' 28 4 = 0x3#4) ∧ w.extractLsb' 0 8 ≠ 0#8))) ∧
  ∀ (s : State) (w : Word) (rest : List Event),
    s.inputs = .access (commandWrite s.base w) :: rest → (decode w).instr? = none →
    ∃ t : State, step s = .next t ∧
      t.SameEngine { s with errIllegal := true, cause := if s.cause = 0#4 then 1#4 else s.cause }

/-- R45 to R48: decoding and encoding are inverse on all commands and all words, and the table's numbering is the word's. -/
def Obligations.DecodeInvertsEncode : Prop :=
  (∀ (i : Instr) (w : Word), decode w = .command i ↔ w = encode i) ∧
  ∀ i : Instr, i.wellFormed = true → decodeTableWord 32 (encode i).toNat = some i

/-- R47: each (match, mask) pair selects the words of its command, and the three sets are disjoint. -/
def Obligations.TableRowsSelectCommands : Prop :=
  ∀ w : Word,
    (w &&& 0xFFFFFFFF#32 = 0x10000000#32 ↔ decode w = .command .init) ∧
    (w &&& 0xFFFFFF00#32 = 0x20000000#32 ↔ decode w = .command (.absorb (w.extractLsb' 0 8))) ∧
    (w &&& 0xFFFFFFFF#32 = 0x30000000#32 ↔ decode w = .command .final) ∧
    ¬(w &&& 0xFFFFFFFF#32 = 0x10000000#32 ∧ w &&& 0xFFFFFF00#32 = 0x20000000#32) ∧
    ¬(w &&& 0xFFFFFFFF#32 = 0x10000000#32 ∧ w &&& 0xFFFFFFFF#32 = 0x30000000#32) ∧
    ¬(w &&& 0xFFFFFF00#32 = 0x20000000#32 ∧ w &&& 0xFFFFFFFF#32 = 0x30000000#32)

/-- 95_test_vectors.md section 4: some of its words. -/
def Obligations.SampleWordsDecode : Prop :=
  decodeTableWord 32 0x10000000 = some .init ∧ decodeTableWord 32 0x20000000 = some (.absorb 0x00#8) ∧
  decodeTableWord 32 0x20000061 = some (.absorb 0x61#8) ∧ decodeTableWord 32 0x200000ff = some (.absorb 0xff#8) ∧
  decodeTableWord 32 0x30000000 = some .final ∧ decodeTableWord 32 0x10000001 = none ∧
  decodeTableWord 32 0x20000100 = none ∧ decodeTableWord 32 0x00000000 = none

/-- R52: what the pseudo-instructions expand to, as the accesses of R51. -/
def Obligations.PseudoInstructionsExpand : Prop :=
  ∀ (base : Nat) (m : List Byte),
    HostLine.accesses base (.absorbs m) = m.map (fun b => Access.write base 4 (0x20000000#32 ||| b.setWidth 32)) ∧
    HostLine.accesses base (.hash m) =
      Access.write base 4 0x10000000#32 ::
        (m.map (fun b => Access.write base 4 (0x20000000#32 ||| b.setWidth 32)) ++ [Access.write base 4 0x30000000#32]) ∧
    HostLine.accesses base .readWholeDigest = (List.range 8).map (fun i => Access.read (base + (0x20 + 4 * i)) 4)

/-! ## Primitive functions and tables (40_functions.md) -/

/-- R53, R54: additions are modulo 2^32 and 2^64, and a sum of several terms may be taken in any order. -/
def Obligations.AdditionsWrap : Prop :=
  (∀ x y : Word, (add32 x y).toNat = (x.toNat + y.toNat) % 2 ^ 32) ∧
  (∀ x y z : Word, add32 (add32 x y) z = add32 x (add32 y z) ∧ add32 x y = add32 y x) ∧
  ∀ x y : Count, (add64 x y).toNat = (x.toNat + y.toNat) % 2 ^ 64

/-- R55: the bitwise operations, bit by bit. -/
def Obligations.BitwiseOperationsByBit : Prop :=
  ∀ (x y : Word) (i : Nat), i < 32 →
    (xor32 x y).getLsbD i = (x.getLsbD i ^^ y.getLsbD i) ∧ (and32 x y).getLsbD i = (x.getLsbD i && y.getLsbD i) ∧
    (or32 x y).getLsbD i = (x.getLsbD i || y.getLsbD i) ∧ (not32 x).getLsbD i = !x.getLsbD i ∧
    not32 x = 0xffffffff#32 - x

/-- R56: the shift is logical, for the two amounts used. -/
def Obligations.ShiftFillsWithZeros : Prop :=
  ∀ (x : Word) (n : Nat), n = 3 ∨ n = 10 →
    (shr32 x n).toNat = x.toNat / 2 ^ n ∧
    ∀ i : Nat, i < 32 → (shr32 x n).getLsbD i = if i + n ≤ 31 then x.getLsbD (i + n) else false

/-- R57: rotation, as the formula and bit by bit. -/
def Obligations.RotationMovesBits : Prop :=
  ∀ (x : Word) (n : Nat), 1 ≤ n → n ≤ 31 →
    rotr x n = (x >>> n) ||| (x <<< (32 - n)) ∧
    ∀ i : Nat, i < 32 → (rotr x n).getLsbD i = x.getLsbD ((i + n) % 32)

/-- R58, R59: Ch chooses and Maj is the majority, bit by bit; their formulas and corner cases. -/
def Obligations.ChooseAndMajority : Prop :=
  ∀ x y z : Word,
    ch x y z = (x &&& y) ^^^ (~~~x &&& z) ∧ maj x y z = (x &&& y) ^^^ (x &&& z) ^^^ (y &&& z) ∧
    (∀ i : Nat, i < 32 →
      (ch x y z).getLsbD i = (if x.getLsbD i then y.getLsbD i else z.getLsbD i) ∧
      (maj x y z).getLsbD i =
        decide (2 ≤ (x.getLsbD i).toNat + (y.getLsbD i).toNat + (z.getLsbD i).toNat)) ∧
    ch 0xffffffff#32 y z = y ∧ ch 0#32 y z = z ∧ maj x x z = x ∧ maj 0xffffffff#32 y z = y ||| z ∧ maj 0#32 y z = y &&& z

/-- R60 to R63: the four sigmas, bit by bit in the bits of their argument, and their corner cases. -/
def Obligations.SigmasByBit : Prop :=
  (∀ (x : Word) (i : Nat), i < 32 →
    (bigSigma0 x).getLsbD i = (x.getLsbD ((i + 2) % 32) ^^ x.getLsbD ((i + 13) % 32) ^^ x.getLsbD ((i + 22) % 32)) ∧
    (bigSigma1 x).getLsbD i = (x.getLsbD ((i + 6) % 32) ^^ x.getLsbD ((i + 11) % 32) ^^ x.getLsbD ((i + 25) % 32)) ∧
    (smallSigma0 x).getLsbD i =
      (x.getLsbD ((i + 7) % 32) ^^ x.getLsbD ((i + 18) % 32) ^^ (decide (i + 3 < 32) && x.getLsbD (i + 3))) ∧
    (smallSigma1 x).getLsbD i =
      (x.getLsbD ((i + 17) % 32) ^^ x.getLsbD ((i + 19) % 32) ^^ (decide (i + 10 < 32) && x.getLsbD (i + 10)))) ∧
  bigSigma0 0#32 = 0#32 ∧ bigSigma0 0xffffffff#32 = 0xffffffff#32 ∧
  bigSigma1 0#32 = 0#32 ∧ bigSigma1 0xffffffff#32 = 0xffffffff#32 ∧
  smallSigma0 0#32 = 0#32 ∧ smallSigma0 0xffffffff#32 = 0x1fffffff#32 ∧
  smallSigma1 0#32 = 0#32 ∧ smallSigma1 0xffffffff#32 = 0x003fffff#32

/-- R64, R65: every constant is the first 32 bits of the fractional part of its prime's square or cube root: with integer
part n, n·2^32 + c is the floor of the root times 2^32. -/
def Obligations.TablesAreRootFractions : Prop :=
  (∀ i : Fin 8, ∃ n : Nat,
    (n * 2 ^ 32 + (initialHash[i]).toNat) ^ 2 ≤ firstPrimes.getD i.val 0 * 2 ^ 64 ∧
    firstPrimes.getD i.val 0 * 2 ^ 64 < (n * 2 ^ 32 + (initialHash[i]).toNat + 1) ^ 2) ∧
  roundConstants.length = 64 ∧
  ∀ i : Nat, i < 64 → ∃ n : Nat,
    (n * 2 ^ 32 + (roundConstants.getD i 0#32).toNat) ^ 3 ≤ firstPrimes.getD i 0 * 2 ^ 96 ∧
    firstPrimes.getD i 0 * 2 ^ 96 < (n * 2 ^ 32 + (roundConstants.getD i 0#32).toNat + 1) ^ 3

/-- R9: the byte-order helpers are big-endian, and splitting a word into bytes and joining them are inverse. -/
def Obligations.ByteOrderIsBigEndian : Prop :=
  (∀ b0 b1 b2 b3 : Byte,
    (be32 b0 b1 b2 b3).toNat = b0.toNat * 2 ^ 24 + b1.toNat * 2 ^ 16 + b2.toNat * 2 ^ 8 + b3.toNat ∧
    bytesBe32 (be32 b0 b1 b2 b3) = [b0, b1, b2, b3]) ∧
  (∀ w : Word, bytesBe32 w =
    [w.extractLsb' 24 8, w.extractLsb' 16 8, w.extractLsb' 8 8, w.extractLsb' 0 8]) ∧
  ∀ v : Count, bytesBe64 v = bytesBe32 (v.extractLsb' 32 32) ++ bytesBe32 (v.extractLsb' 0 32) ∧
    bytesBe64 v =
      [v.extractLsb' 56 8, v.extractLsb' 48 8, v.extractLsb' 40 8, v.extractLsb' 32 8,
       v.extractLsb' 24 8, v.extractLsb' 16 8, v.extractLsb' 8 8, v.extractLsb' 0 8]

/-! ## Message schedule and Block Compressor (41_compressor.md) -/

/-- R30, R67, R68: the schedule of a block has 64 words, the first 16 the block's big-endian words, each later one given by
the recurrence; and R68's two corner cases. -/
def Obligations.ScheduleFollowsRecurrence : Prop :=
  (∀ B : List Byte, B.length = 64 →
    (schedule B).length = 64 ∧
    (∀ i : Nat, i < 16 → scheduleWord (schedule B) i =
      be32 (B.getD (4 * i) 0#8) (B.getD (4 * i + 1) 0#8) (B.getD (4 * i + 2) 0#8) (B.getD (4 * i + 3) 0#8)) ∧
    ∀ r : Nat, 16 ≤ r → r < 64 → scheduleWord (schedule B) r =
      smallSigma1 (scheduleWord (schedule B) (r - 2)) + scheduleWord (schedule B) (r - 7) +
        smallSigma0 (scheduleWord (schedule B) (r - 15)) + scheduleWord (schedule B) (r - 16)) ∧
  (∀ r : Nat, r < 64 → scheduleWord (schedule (List.replicate 64 0x00#8)) r = 0#32) ∧
  scheduleWord (schedule (List.replicate 64 0xff#8)) 16 = 0x203ffffc#32 ∧
  scheduleWord (schedule (List.replicate 64 0xff#8)) 17 = 0x203ffffc#32 ∧
  scheduleWord (schedule (List.replicate 64 0xff#8)) 18 = 0x20099be4#32 ∧
  scheduleWord (schedule (List.replicate 64 0xff#8)) 19 = 0x20099be4#32

/-- R69 to R72: Compress is the working copy, 64 rounds in order with K[r] and W[r], and the feed-forward. -/
def Obligations.CompressRunsSixtyFourRounds : Prop :=
  ∀ (H : Accumulator) (B : List Byte), B.length = 64 → ∃ v : Nat → Working,
    v 0 = { a := H[0], b := H[1], c := H[2], d := H[3], e := H[4], f := H[5], g := H[6], h := H[7] } ∧
    (∀ r : Nat, r < 64 →
      let t1 := (v r).h + bigSigma1 (v r).e + ch (v r).e (v r).f (v r).g + roundConstants.getD r 0#32 +
        scheduleWord (schedule B) r
      let t2 := bigSigma0 (v r).a + maj (v r).a (v r).b (v r).c
      v (r + 1) = { a := t1 + t2, b := (v r).a, c := (v r).b, d := (v r).c,
                    e := (v r).d + t1, f := (v r).e, g := (v r).f, h := (v r).g }) ∧
    compress H B = #v[H[0] + (v 64).a, H[1] + (v 64).b, H[2] + (v 64).c, H[3] + (v 64).d,
                      H[4] + (v 64).e, H[5] + (v 64).f, H[6] + (v 64).g, H[7] + (v 64).h]

/-- R14, R74 (with 42_commands.md R77, R78, R81 to R84): what each event does to H. A reset and INIT's word set it to H0; the
ABSORB that fills BUF runs the Block Compressor on BUF with its byte; FINAL outside FINALIZED runs it on the one or two 64-byte
blocks of its tail, in order; and every other event, and an idle step (log entry 6), leaves H alone. -/
def Obligations.AccumulatorIsWrittenByCompressor : Prop :=
  (∀ s t : State, s.inputs = [] → step s = .next t → t.h = s.h) ∧
  ∀ (s t : State) (e : Event) (rest : List Event), Memory.wf s.buf = true → s.inputs = e :: rest → step s = .next t →
    let tail := finalTail s.buf s.countTail.bitlen
    ((∃ l : List Access, e = .reset l) ∨ e = .access (commandWrite s.base (encode .init)) → t.h = initialHash) ∧
    (∀ d : Byte, e = .access (commandWrite s.base (encode (.absorb d))) → s.phase ≠ .finalized → s.buf.length = 63 →
      (s.buf ++ [d]).length = 64 ∧ t.h = compress s.h (s.buf ++ [d])) ∧
    (e = .access (commandWrite s.base (encode .final)) → s.phase ≠ .finalized → s.buf.length < 56 →
      tail.length = 64 ∧ t.h = compress s.h tail) ∧
    (e = .access (commandWrite s.base (encode .final)) → s.phase ≠ .finalized → 56 ≤ s.buf.length →
      tail.length = 128 ∧ t.h = compress (compress s.h (tail.take 64)) (tail.drop 64)) ∧
    ((∀ l : List Access, e ≠ .reset l) → e ≠ .access (commandWrite s.base (encode .init)) →
      (∀ d : Byte, e = .access (commandWrite s.base (encode (.absorb d))) → s.phase = .finalized ∨ s.buf.length ≠ 63) →
      (e = .access (commandWrite s.base (encode .final)) → s.phase = .finalized) → t.h = s.h)

/-! ## The commands (42_commands.md) -/

/-- R77: INIT completes in every state and makes the Fresh state; STATUS and DIGEST0..7 then read 0; a second INIT, or one
right after reset, changes nothing. -/
def Obligations.InitMakesFresh : Prop :=
  (∀ s : State, ∃ t : State, exec .init s = .next t ∧
    t = { s with h := initialHash, buf := [], bitlen := 0#64, phase := .fresh,
                 errMisuse := false, errIllegal := false, cause := 0#4 } ∧
    t.status = 0x00000000#32 ∧ (∀ i : Fin 8, t.digestWord i = 0x00000000#32) ∧ exec .init t = .next t) ∧
  exec .init State.reset = .next State.reset

/-- R78: ABSORB d appends a byte, and at the 64th compresses, counts 512 bits and empties BUF, in one step; in FINALIZED it
only records ABSORB_AFTER_FINAL. -/
def Obligations.AbsorbAppendsOrCompresses : Prop :=
  ∀ (s : State) (d : Byte),
    (s.phase ≠ .finalized → s.buf.length ≠ 63 →
      exec (.absorb d) s = .next { s with buf := s.buf ++ [d], phase := .absorbing }) ∧
    (s.phase ≠ .finalized → s.buf.length = 63 →
      exec (.absorb d) s = .next { s with h := compress s.h (s.buf ++ [d]), bitlen := s.bitlen + 512#64,
                                          buf := [], phase := .absorbing }) ∧
    (s.phase = .finalized →
      exec (.absorb d) s = .next { s with errMisuse := true, cause := if s.cause = 0#4 then 2#4 else s.cause })

/-- R81 to R85: FINAL in FRESH or ABSORBING completes: one padded block when P < 56, two when P ≥ 56, the bit length of rule
R82 in the last eight bytes; BUF empty, PHASE FINALIZED, all else unchanged. -/
def Obligations.FinalPadsAndCompresses : Prop :=
  ∀ s : State, s.phase ≠ .finalized → Memory.wf s.buf = true →
    exec .final s = .next
      { s with
        h := if s.buf.length < 56 then
            compress s.h (s.buf ++ [0x80#8] ++ List.replicate (55 - s.buf.length) 0x00#8 ++
              bytesBe64 (s.bitlen + BitVec.ofNat 64 (8 * s.buf.length)))
          else
            compress (compress s.h (s.buf ++ [0x80#8] ++ List.replicate (63 - s.buf.length) 0x00#8))
              (List.replicate 56 0x00#8 ++ bytesBe64 (s.bitlen + BitVec.ofNat 64 (8 * s.buf.length)))
        bitlen := s.bitlen + BitVec.ofNat 64 (8 * s.buf.length)
        buf := []
        phase := .finalized }

/-- R83 (with R81 and 20_memory.md R31, R35): the shape of TAIL. -/
def Obligations.TailFillsWholeBlocks : Prop :=
  ∀ (buf : Memory) (L : Count), Memory.wf buf = true →
    (finalTail buf L).length = (if buf.length < 56 then 64 else 128) ∧
    (finalTail buf L).take buf.length = buf ∧
    (finalTail buf L)[buf.length]? = some 0x80#8 ∧
    (∀ j : Nat, buf.length < j → j + 8 < (finalTail buf L).length → (finalTail buf L)[j]? = some 0x00#8) ∧
    (finalTail buf L).drop ((finalTail buf L).length - 8) = bytesBe64 L

/-- R80: FINAL is single-use: in FINALIZED it only records FINAL_AFTER_FINAL, and DIGEST0..7 keep reading the first digest;
it is legal in FRESH and ABSORBING. -/
def Obligations.FinalIsSingleUse : Prop :=
  ∀ s : State,
    (s.phase = .finalized → ∃ t : State, exec .final s = .next t ∧
      t = { s with errMisuse := true, cause := if s.cause = 0#4 then 3#4 else s.cause } ∧
      ∀ i : Fin 8, t.digestWord i = s.digestWord i) ∧
    (s.phase = .fresh ∨ s.phase = .absorbing →
      ∃ t : State, exec .final s = .next t ∧ t.phase = .finalized ∧ s.SameFaults t)

/-- R19: the engine holds the message absorbed since the last INIT or reset: reset holds the empty message, and every step,
whatever it serves (log entries 5 and 6 included), takes a state that holds `m` to one that holds the message after it. The
`sha256 m` of a FINALIZED engine carries the bit length modulo 2^64 (log entry 16): it is the SHA-256 of `m` when `m` has fewer
than 2^61 bytes (93_implementation_defined.md U2). -/
def Obligations.EngineHoldsTheMessage : Prop :=
  State.reset.Holds [] ∧
  ∀ (s t : State) (m : List Byte), s.Holds m → step s = .next t → t.Holds (s.messageAfter m)

/-- R79: absorbing a byte sequence, from any state that is not FINALIZED; and any split of it into absorb calls does the
same. -/
def Obligations.AbsorbingASequence : Prop :=
  ∀ (s : State) (chunks : List (List Byte)), s.phase ≠ .finalized → Memory.wf s.buf = true →
    let bytes := chunks.flatten
    let m := s.buf ++ bytes
    ∃ t : State, execAll (absorbCommands bytes) s = .next t ∧
      execAll (chunks.map absorbCommands).flatten s = .next t ∧
      t = { s with h := hashBlocks (m.length / 64) s.h m
                   buf := m.drop (64 * (m.length / 64))
                   bitlen := s.bitlen + BitVec.ofNat 64 (512 * (m.length / 64))
                   phase := if bytes = [] then s.phase else .absorbing }

/-- R86, R88: HASH of any message, in any state, leaves in H the one-piece SHA-256 of the message (Safety.lean), 32 digest
bytes, the total bit length modulo 2^64 in BITLEN, and STATUS 2. The length field is the TRUE bit length for messages of
fewer than 2^61 bytes (R117; log entry 16). -/
def Obligations.HashComputesSha256 : Prop :=
  ∀ (s : State) (m : List Byte), ∃ t : State, execAll (hashCommands m) s = .next t ∧
    t = { s with h := sha256 m, buf := [], bitlen := BitVec.ofNat 64 (8 * m.length), phase := .finalized,
                 errMisuse := false, errIllegal := false, cause := 0#4 } ∧
    t.status = 0x00000002#32 ∧ (accumulatorBytes t.h).length = 32

/-- R86, Determinism: two engines given the same message after INIT end with the same engine state, whatever they held. -/
def Obligations.SameMessageSameDigest : Prop :=
  ∀ (s t s' t' : State) (m : List Byte), execAll (hashCommands m) s = .next s' → execAll (hashCommands m) t = .next t' →
    s'.SameEngine t' ∧ accumulatorBytes s'.h = accumulatorBytes t'.h

/-- R13, R77, R78, R85, R101: the frame of each command. INIT writes all seven elements; ABSORB writes BUF and PHASE, and H
and BITLEN only with the 64th byte, and keeps every byte already in BUF when it does not compress; FINAL writes H, BUF, BITLEN
and PHASE; in FINALIZED both write the fault record alone; none touches the model's own fields. -/
def Obligations.CommandFrames : Prop :=
  (∀ s t : State, exec .init s = .next t → s.SameOutside t) ∧
  (∀ (s t : State) (d : Byte), exec (.absorb d) s = .next t →
    s.SameOutside t ∧ (s.phase ≠ .finalized → s.SameFaults t) ∧ (s.phase = .finalized → s.SameHash t) ∧
    (s.buf.length ≠ 63 → t.h = s.h ∧ t.bitlen = s.bitlen ∧ ∀ j : Nat, j < s.buf.length → t.buf[j]? = s.buf[j]?)) ∧
  ∀ s t : State, exec .final s = .next t →
    s.SameOutside t ∧ (s.phase ≠ .finalized → s.SameFaults t) ∧ (s.phase = .finalized → s.SameHash t)

/-- R17: the phase transitions of the commands and of reset, from every phase, and that no other event moves PHASE; PHASE in
STATUS is 0, 1 or 2. -/
def Obligations.PhaseTransitions : Prop :=
  (∀ s : State, ∃ t : State, exec .init s = .next t ∧ t.phase = .fresh) ∧
  (∀ (s : State) (d : Byte), ∃ t : State, exec (.absorb d) s = .next t ∧
    t.phase = if s.phase = .finalized then .finalized else .absorbing) ∧
  (∀ s : State, ∃ t : State, exec .final s = .next t ∧ t.phase = .finalized) ∧
  (∀ (s t : State) (e : Event) (rest : List Event), s.inputs = e :: rest → step s = .next t → t.phase ≠ s.phase →
    (∃ l, e = .reset l ∧ t.phase = .fresh) ∨ ∃ i : Instr, e = .access (commandWrite s.base (encode i))) ∧
  ∀ s : State, s.status.extractLsb' 0 2 =
    match s.phase with
    | .fresh => 0#2
    | .absorbing => 1#2
    | .finalized => 2#2

/-! ## Host register accesses (43_bus_access.md) -/

/-- R76, R91: a step that serves a write of a command's word to CMD is exec of that command, in the state from which the
access is taken and in which its completion is answered (the model's own fields, log entries 2 and 3); and the word of
`withFetchWord` is what the next step executes. -/
def Obligations.StepRunsDecodedCommand : Prop :=
  (∀ (s : State) (w : Word) (i : Instr) (rest : List Event),
    s.inputs = .access (commandWrite s.base w) :: rest → decode w = .command i →
    step s = exec i { s with inputs := rest, responses := s.responses ++ [.done] }) ∧
  ∀ (s : State) (i : Instr), step (s.withFetchWord 32 (encode i).toNat) =
    exec i { s with responses := s.responses ++ [.done] }

/-- R91: an admitted write to CMD executes its word, and no other access changes the engine: a step that changes it serves
such a write, or a reset. -/
def Obligations.OnlyCommandWritesChangeTheEngine : Prop :=
  (∀ (s : State) (w : Word) (rest : List Event), s.inputs = .access (commandWrite s.base w) :: rest →
    ∃ t u : State, step s = .next t ∧ executeWord w s = .next u ∧ t.SameEngine u) ∧
  ∀ (s t : State) (e : Event) (rest : List Event), s.inputs = e :: rest → step s = .next t → ¬s.SameEngine t →
    (∃ w : Word, e = .access (commandWrite s.base w)) ∨ ∃ l : List Access, e = .reset l

/-- R90, R112, R121: with nothing to serve the engine holds its whole state (log entry 6); every step answers a next state,
serves exactly the oldest event and takes no answer back (log entries 2 and 3); so a run of any events ends with all of them
served. -/
def Obligations.EveryAccessCompletes : Prop :=
  (∀ s : State, s.inputs = [] → step s = .next s) ∧
  (∀ s : State, ∃ t : State, step s = .next t ∧ t.inputs = s.inputs.tail ∧ ∃ new : List Response,
    new.length ≤ 1 ∧ t.responses = s.responses ++ new) ∧
  ∀ s : State, ∃ t : State, runInputs s = .next t ∧ t.inputs = []

/-- R89: admission. An access to the window of another width than 4, or misaligned, or running past its end, is answered with
a bus error and changes nothing; an aligned one of width 4 is admitted at its offset and is not answered with a bus error. That
an admitted WRITE gets an answer, and exactly one, is the model's choice (log entry 3), not R89's. -/
def Obligations.AdmissionOfAccesses : Prop :=
  ∀ (s : State) (a : Access) (rest : List Event), s.inputs = .access a :: rest →
    s.base ≤ a.addr → a.addr ≤ s.base + 0x3F →
    (a.nbytes ≠ 4 ∨ (a.addr - s.base) % 4 ≠ 0 ∨ s.base + 0x3F < a.addr + a.nbytes - 1 →
      ∃ t : State, step s = .next t ∧ s.SameEngine t ∧ t.responses = s.responses ++ [.busError]) ∧
    (a.nbytes = 4 → (a.addr - s.base) % 4 = 0 →
      a.admission s.base = .admitted (a.addr - s.base) ∧ ∃ t : State, step s = .next t ∧
        ∃ r : Response, r ≠ .busError ∧ t.responses = s.responses ++ [r])

/-- The model's reading of R89's "Accesses outside the window are not the engine's" (log entry 5): such an access is passed
over, unanswered, with no effect. -/
def Obligations.AccessesElsewhereHaveNoEffect : Prop :=
  ∀ (s : State) (a : Access) (rest : List Event), s.inputs = .access a :: rest →
    a.addr < s.base ∨ s.base + 0x3F < a.addr → step s = .next { s with inputs := rest }

/-- R92, R93, R95: the value each register's read returns; a read has no effect on the engine. -/
def Obligations.ReadsReturnRegisterValues : Prop :=
  ∀ (s : State) (off : Nat) (rest : List Event), off < 64 → off % 4 = 0 →
    s.inputs = .access (.read (s.base + off) 4) :: rest →
    ∃ t : State, step s = .next t ∧ s.SameEngine t ∧ t.responses = s.responses ++ [.data (
      if off = 0x00 then 0x00000000#32
      else if off = 0x04 then s.status
      else if off < 0x20 then 0x00000000#32
      else if s.phase = .finalized then (accumulatorWords s.h).getD ((off - 0x20) / 4) 0#32
      else 0x00000000#32)]

/-- R94, R96: a write to STATUS or DIGESTi is ignored: no state changes and no fault. -/
def Obligations.ReadOnlyRegistersIgnoreWrites : Prop :=
  ∀ (s : State) (off : Nat) (v : Word) (rest : List Event), off = 0x04 ∨ (0x20 ≤ off ∧ off < 64 ∧ off % 4 = 0) →
    s.inputs = .access (.write (s.base + off) 4 v) :: rest →
    ∃ t : State, step s = .next t ∧ s.SameEngine t

/-- R97: the reserved offsets 0x08 to 0x1C read 0 and ignore writes; no fault. -/
def Obligations.ReservedOffsetsAreInert : Prop :=
  ∀ (s : State) (off : Nat) (v : Word) (rest : List Event), 0x08 ≤ off → off ≤ 0x1C → off % 4 = 0 →
    (s.inputs = .access (.read (s.base + off) 4) :: rest →
      ∃ t : State, step s = .next t ∧ s.SameEngine t ∧ t.responses = s.responses ++ [.data 0x00000000#32]) ∧
    (s.inputs = .access (.write (s.base + off) 4 v) :: rest →
      ∃ t : State, step s = .next t ∧ s.SameEngine t)

/-- R24: the fields of STATUS, reserved bits included. -/
def Obligations.StatusFields : Prop :=
  ∀ s : State, Memory.wf s.buf = true →
    s.status.extractLsb' 0 2 = s.phase.code.setWidth 2 ∧
    s.status.getLsbD 2 = s.errMisuse ∧
    s.status.getLsbD 3 = s.errIllegal ∧
    s.status.extractLsb' 4 4 = 0#4 ∧
    (s.status.extractLsb' 8 6).toNat = s.buf.length ∧
    s.status.extractLsb' 14 2 = 0#2 ∧
    s.status.extractLsb' 16 4 = s.cause ∧
    s.status.extractLsb' 20 12 = 0#12

/-- R32, R44: digest byte 4i + j is H[i][31 − 8j : 24 − 8j], and in FINALIZED it is that slice of DIGESTi. -/
def Obligations.DigestByteOrder : Prop :=
  ∀ (s : State) (i : Fin 8) (j : Nat), j < 4 →
    (accumulatorBytes s.h)[4 * i.val + j]? = some ((s.h[i]).extractLsb' (24 - 8 * j) 8) ∧
    (s.phase = .finalized →
      (accumulatorBytes s.h)[4 * i.val + j]? = some ((s.digestWord i).extractLsb' (24 - 8 * j) 8))

/-- R13, R14, R95 (D14, D25, D28): before FINAL a host learns nothing of H, of BITLEN or of the bytes in BUF. Two engines that
differ in these alone give the same answers to any events without a FINAL, and end alike to the host. -/
def Obligations.HashStateIsHiddenBeforeFinal : Prop :=
  ∀ s t : State, s.SameToHost t → s.phase ≠ .finalized →
    Event.access (commandWrite s.base 0x30000000#32) ∉ s.inputs →
    ∃ s' t' : State, runInputs s = .next s' ∧ runInputs t = .next t' ∧ s'.SameToHost t'

/-- R88, R98, R116: the host's whole use of the engine: the lines HASH m, RD STATUS and RDDIGEST, from any state, read back
STATUS 2 and the eight words of `sha256 m`. The count of answers, one to each write among them, is the model's choice (log
entry 3); `sha256 m` pads with the bit length modulo 2^64 (log entry 16) and is the SHA-256 of `m` when `m` has fewer than 2^61
bytes (93_implementation_defined.md U2). -/
def Obligations.HostReadsTheDigest : Prop :=
  ∀ (s : State) (m : List Byte),
    s.inputs = (hostAccesses s.base [.hash m, .readStatus, .readWholeDigest]).map Event.access →
    ∃ t : State, runInputs s = .next t ∧ t.inputs = [] ∧ t.h = sha256 m ∧
      readValues t.responses = readValues s.responses ++ 0x00000002#32 :: accumulatorWords (sha256 m) ∧
      t.responses.length = s.responses.length + m.length + 11

/-! ## Faults (60_exceptions.md) -/

/-- R100: `raise` sets one flag, records the code if CAUSE is 0, and changes no other state. -/
def Obligations.RaiseRecordsTheFirstFault : Prop :=
  ∀ s : State,
    s.raise .illegalCommand = { s with errIllegal := true, cause := if s.cause = 0#4 then 1#4 else s.cause } ∧
    s.raise .absorbAfterFinal = { s with errMisuse := true, cause := if s.cause = 0#4 then 2#4 else s.cause } ∧
    s.raise .finalAfterFinal = { s with errMisuse := true, cause := if s.cause = 0#4 then 3#4 else s.cause }

/-- R101: faults are precise and are not traps: a faulting command word leaves H, BUF, BITLEN and PHASE alone, the step goes
on to a next state, and a later command does what it would have done without the fault, but for the fault record. -/
def Obligations.FaultsArePrecise : Prop :=
  (∀ (s : State) (w : Word),
    (decode w).instr? = none ∨ (s.phase = .finalized ∧ (decode w).instr? ≠ some .init) →
    ∃ (t : State) (f : EngineFault), executeWord w s = .next t ∧ t = s.raise f ∧ s.SameHash t ∧ s.SameOutside t) ∧
  ∀ (s t : State) (f : EngineFault) (i : Instr), exec i s = .next t →
    ∃ u : State, exec i (s.raise f) = .next u ∧ t.SameHash u ∧ t.SameOutside u

/-- R102: priority: admission before decoding, decoding before the phase; one access raises at most one fault; over several
faults the flags accumulate and CAUSE keeps the first. -/
def Obligations.FaultPriority : Prop :=
  (∀ (s : State) (a : Access) (rest : List Event), s.inputs = .access a :: rest → a.inWindow s.base = true →
    a.nbytes ≠ 4 ∨ (a.addr - s.base) % 4 ≠ 0 →
    ∃ t : State, step s = .next t ∧ s.SameEngine t ∧ t.responses = s.responses ++ [.busError]) ∧
  (∀ (s : State) (w : Word), (decode w).instr? = none → executeWord w s = .next (s.raise .illegalCommand)) ∧
  (∀ (s : State) (w : Word) (i : Instr), (decode w).instr? = some i → s.phase = .finalized → i ≠ .init →
    executeWord w s = .next (s.raise (if i = .final then .finalAfterFinal else .absorbAfterFinal))) ∧
  ∀ (s : State) (f g : EngineFault),
    ((s.raise f).raise g).cause = (s.raise f).cause ∧
    ((s.raise f).raise g).errIllegal = (s.errIllegal || decide (f = .illegalCommand) || decide (g = .illegalCommand)) ∧
    ((s.raise f).raise g).errMisuse = (s.errMisuse || decide (f ≠ .illegalCommand) || decide (g ≠ .illegalCommand))

/-- R18, R103: the fault record is sticky: only INIT and reset clear it. -/
def Obligations.FaultRecordIsSticky : Prop :=
  (∀ s t : State, step s = .next t →
    (∀ rest : List Event, s.inputs ≠ .access (commandWrite s.base 0x10000000#32) :: rest) →
    (∀ (l : List Access) (rest : List Event), s.inputs ≠ .reset l :: rest) →
    (s.errMisuse = true → t.errMisuse = true) ∧ (s.errIllegal = true → t.errIllegal = true) ∧
      (s.cause ≠ 0#4 → t.cause = s.cause)) ∧
  ∀ (s : State) (e : Event) (rest : List Event), s.inputs = e :: rest →
    (e = .access (commandWrite s.base 0x10000000#32) ∨ ∃ l : List Access, e = .reset l) →
    ∃ t : State, step s = .next t ∧ t.errMisuse = false ∧ t.errIllegal = false ∧ t.cause = 0#4

/-- R99, R105: nothing but the three faults sets a fault record: a step that changes it serves an illegal word, an ABSORB or
FINAL in FINALIZED, or clears it (INIT, reset). In particular no byte value, no read, no write to a read-only or reserved
offset, no FINAL in FRESH and no wrap of BITLEN is a fault. -/
def Obligations.OnlyFaultsAreRecorded : Prop :=
  ∀ (s t : State) (e : Event) (rest : List Event), s.inputs = e :: rest → step s = .next t → ¬s.SameFaults t →
    (∃ w : Word, e = .access (commandWrite s.base w) ∧ (decode w).instr? = none) ∨
    (∃ d : Byte, e = .access (commandWrite s.base (encode (.absorb d))) ∧ s.phase = .finalized) ∨
    (e = .access (commandWrite s.base (encode .final)) ∧ s.phase = .finalized) ∨
    e = .access (commandWrite s.base (encode .init)) ∨
    ∃ l : List Access, e = .reset l

/-- R110: instances are independent: an access reaches the instance whose window holds its address and no other, and a step
of one instance leaves every other one alone. -/
def Obligations.InstancesAreIndependent : Prop :=
  (∀ (p : Platform) (a : Access) (k : Nat) (s : State), p.windowsDistinct → p[k]? = some s → a.inWindow s.base = true →
    (p.present a)[k]? = some { s with inputs := s.inputs ++ [.access a] } ∧
    ∀ j : Nat, j ≠ k → (p.present a)[j]? = p[j]?) ∧
  ∀ (p : Platform) (k : Nat) (s t : State), p[k]? = some s → step s = .next t →
    ∃ q : Platform, p.stepAt k = .next q ∧ q[k]? = some t ∧ ∀ j : Nat, j ≠ k → q[j]? = p[j]?

/-! ## Reset and the invariant (10_state.md, 70_reset_and_hazards.md) -/

/-- R27: the reset value of every state element, and the derived registers. -/
def Obligations.ResetValues : Prop :=
  State.reset.h = #v[0x6a09e667#32, 0xbb67ae85#32, 0x3c6ef372#32, 0xa54ff53a#32,
                     0x510e527f#32, 0x9b05688c#32, 0x1f83d9ab#32, 0x5be0cd19#32] ∧
  State.reset.buf = [] ∧ State.reset.bitlen = 0#64 ∧ State.reset.phase = .fresh ∧
  State.reset.errMisuse = false ∧ State.reset.errIllegal = false ∧ State.reset.cause = 0#4 ∧
  State.reset.status = 0x00000000#32 ∧ (∀ i : Fin 8, State.reset.digestWord i = 0x00000000#32) ∧
  ∀ s : State, ∃ t : State, exec .init s = .next t ∧ t.SameEngine State.reset

/-- R113: the reset input sets every state element to its reset value, from every state, the same state INIT makes. -/
def Obligations.ResetSetsEveryElement : Prop :=
  (∀ (s : State) (l : List Access) (rest : List Event), s.inputs = .reset l :: rest →
    ∃ t : State, step s = .next t ∧ t.SameEngine State.reset) ∧
  ∀ s : State, ∃ t : State, exec .init s = .next t ∧ t.SameEngine State.reset

/-- R114, as the model has it (log entry 4): nothing of an access served just before a reset survives it; the accesses a reset
abandons are neither served nor answered, and what arrives after it is served next. -/
def Obligations.ResetAbandonsAccesses : Prop :=
  (∀ (s : State) (a : Access) (l : List Access) (rest : List Event), s.inputs = .access a :: .reset l :: rest →
    ∃ t u : State, step s = .next t ∧ step t = .next u ∧ u.SameEngine State.reset) ∧
  ∀ (s : State) (l : List Access) (rest : List Event), s.inputs = .reset l :: rest →
    ∃ t : State, step s = .next t ∧ t.inputs = rest ∧ t.responses = s.responses ∧ t.baseSlot = s.baseSlot

/-- R15, R17, R18, R19, R24: the invariant holds after reset. -/
def Obligations.InvariantHoldsAtReset : Prop := State.reset.Inv

/-- R15, R17, R18, R19, R24: every step keeps the invariant. -/
def Obligations.EveryStepKeepsTheInvariant : Prop :=
  ∀ s t : State, s.Inv → step s = .next t → t.Inv
end

