-- ==== Sys2Proof/Laws/Compressor.lean ====
section
/-! SUPPORT. The schedule expander adds words and never changes one it has, and the compressor on a block. -/

namespace Sys2Proof.Machine

@[simp] theorem loadSchedule_length (B : List Byte) : (loadSchedule B).length = 16 := by simp [loadSchedule]

theorem expandSchedule_length (n : Nat) (W : List Word) : (expandSchedule n W).length = W.length + n := by
  induction n generalizing W with
  | zero => rfl
  | succ n ih => rw [expandSchedule, ih, List.length_append, List.length_singleton]; omega

theorem scheduleWord_append (W V : List Word) (i : Nat) (hi : i < W.length) :
    scheduleWord (W ++ V) i = scheduleWord W i := by
  simp [scheduleWord, List.getD_eq_getElem?_getD, List.getElem?_append_left hi]

theorem expandSchedule_prefix (n : Nat) (W : List Word) (i : Nat) (hi : i < W.length) :
    scheduleWord (expandSchedule n W) i = scheduleWord W i := by
  induction n generalizing W with
  | zero => rfl
  | succ n ih =>
    rw [expandSchedule, ih _ (by rw [List.length_append]; omega), scheduleWord_append _ _ _ hi]

theorem compress_of_block (H : Accumulator) (B : List Byte) (hB : B.length = 64) :
    compress H B = feedForward H (compressRounds (schedule B) (workingCopy H)) := by
  rw [compress, if_pos hB, compressBlock64]

end Sys2Proof.Machine
end

