-- ==== Sys2Proof/Laws/Flags.lean ====
section
/-! SUPPORT. STATUS bit by bit: which state element each of its 32 bits shows. -/

namespace Sys2Proof.Machine

theorem flagWord_bit (b : Bool) (k : Nat) : (flagWord b).getLsbD k = (decide (k = 0) && b) := by
  cases b
  · simp [flagWord]
  · cases k with
    | zero => simp [flagWord]
    | succ k => simp [flagWord, BitVec.getLsbD_ofNat, Nat.testBit_succ]

theorem State.status_bit (s : State) (j : Nat) (hj : j < 32) : s.status.getLsbD j =
    ((decide (16 ≤ j) && s.cause.getLsbD (j - 16)) || (decide (8 ≤ j) && s.buf.length.testBit (j - 8)) ||
      (decide (j = 3) && s.errIllegal) || (decide (j = 2) && s.errMisuse) || s.phase.code.getLsbD j) := by
  simp only [State.status, BitVec.getLsbD_or, BitVec.getLsbD_shiftLeft, BitVec.getLsbD_setWidth,
    BitVec.getLsbD_ofNat, flagWord_bit]
  have a1 : j - 16 < 32 := by omega
  have a2 : j - 8 < 32 := by omega
  congr 1
  · congr 1
    · congr 1
      · congr 1
        · by_cases h : j < 16
          · simp [h, hj, Nat.not_le.2 h]
          · simp [h, hj, a1, Nat.le_of_not_lt h]
        · by_cases h : j < 8
          · simp [h, hj, Nat.not_le.2 h]
          · simp [h, hj, a2, Nat.le_of_not_lt h]
      · by_cases h : j = 3
        · subst h; simp
        · by_cases h3 : j < 3 <;> simp [h, h3]; omega
    · by_cases h : j = 2
      · subst h; simp
      · by_cases h3 : j < 2 <;> simp [h, h3]; omega

/-- PHASE's code takes two bits. -/
theorem Phase.code_bit (p : Phase) (j : Nat) (h : 2 ≤ j) : p.code.getLsbD j = false := by
  cases p
  · simp [Phase.code]
  · simp only [Phase.code, BitVec.getLsbD_ofNat, Bool.and_eq_false_iff]
    exact .inr (Nat.testBit_lt_two_pow (Nat.lt_of_lt_of_le (by omega : 1 < 2 ^ 2) (Nat.pow_le_pow_right (by omega) h)))
  · simp only [Phase.code, BitVec.getLsbD_ofNat, Bool.and_eq_false_iff]
    exact .inr (Nat.testBit_lt_two_pow (Nat.lt_of_lt_of_le (by omega : 2 < 2 ^ 2) (Nat.pow_le_pow_right (by omega) h)))

end Sys2Proof.Machine
end

