-- ==== Sys2Proof/Laws/State.lean ====
section
/-! SUPPORT. One lemma per field per writer of Machine/Ops.lean: what a writer writes, and that it leaves the other nine
fields alone. With these no proof unfolds a record update. -/

namespace Sys2Proof.Machine

@[simp] theorem State.setAccumulator_h (s : State) (v : Accumulator) : (s.setAccumulator v).h = v := rfl
@[simp] theorem State.setAccumulator_buf (s : State) (v : Accumulator) : (s.setAccumulator v).buf = s.buf := rfl
@[simp] theorem State.setAccumulator_bitlen (s : State) (v : Accumulator) : (s.setAccumulator v).bitlen = s.bitlen := rfl
@[simp] theorem State.setAccumulator_phase (s : State) (v : Accumulator) : (s.setAccumulator v).phase = s.phase := rfl
@[simp] theorem State.setAccumulator_errMisuse (s : State) (v : Accumulator) : (s.setAccumulator v).errMisuse = s.errMisuse := rfl
@[simp] theorem State.setAccumulator_errIllegal (s : State) (v : Accumulator) : (s.setAccumulator v).errIllegal = s.errIllegal := rfl
@[simp] theorem State.setAccumulator_cause (s : State) (v : Accumulator) : (s.setAccumulator v).cause = s.cause := rfl
@[simp] theorem State.setAccumulator_baseSlot (s : State) (v : Accumulator) : (s.setAccumulator v).baseSlot = s.baseSlot := rfl
@[simp] theorem State.setAccumulator_inputs (s : State) (v : Accumulator) : (s.setAccumulator v).inputs = s.inputs := rfl
@[simp] theorem State.setAccumulator_responses (s : State) (v : Accumulator) : (s.setAccumulator v).responses = s.responses := rfl

@[simp] theorem State.setBuf_h (s : State) (v : Memory) : (s.setBuf v).h = s.h := rfl
@[simp] theorem State.setBuf_buf (s : State) (v : Memory) : (s.setBuf v).buf = v := rfl
@[simp] theorem State.setBuf_bitlen (s : State) (v : Memory) : (s.setBuf v).bitlen = s.bitlen := rfl
@[simp] theorem State.setBuf_phase (s : State) (v : Memory) : (s.setBuf v).phase = s.phase := rfl
@[simp] theorem State.setBuf_errMisuse (s : State) (v : Memory) : (s.setBuf v).errMisuse = s.errMisuse := rfl
@[simp] theorem State.setBuf_errIllegal (s : State) (v : Memory) : (s.setBuf v).errIllegal = s.errIllegal := rfl
@[simp] theorem State.setBuf_cause (s : State) (v : Memory) : (s.setBuf v).cause = s.cause := rfl
@[simp] theorem State.setBuf_baseSlot (s : State) (v : Memory) : (s.setBuf v).baseSlot = s.baseSlot := rfl
@[simp] theorem State.setBuf_inputs (s : State) (v : Memory) : (s.setBuf v).inputs = s.inputs := rfl
@[simp] theorem State.setBuf_responses (s : State) (v : Memory) : (s.setBuf v).responses = s.responses := rfl

@[simp] theorem State.setBitlen_h (s : State) (v : Count) : (s.setBitlen v).h = s.h := rfl
@[simp] theorem State.setBitlen_buf (s : State) (v : Count) : (s.setBitlen v).buf = s.buf := rfl
@[simp] theorem State.setBitlen_bitlen (s : State) (v : Count) : (s.setBitlen v).bitlen = v := rfl
@[simp] theorem State.setBitlen_phase (s : State) (v : Count) : (s.setBitlen v).phase = s.phase := rfl
@[simp] theorem State.setBitlen_errMisuse (s : State) (v : Count) : (s.setBitlen v).errMisuse = s.errMisuse := rfl
@[simp] theorem State.setBitlen_errIllegal (s : State) (v : Count) : (s.setBitlen v).errIllegal = s.errIllegal := rfl
@[simp] theorem State.setBitlen_cause (s : State) (v : Count) : (s.setBitlen v).cause = s.cause := rfl
@[simp] theorem State.setBitlen_baseSlot (s : State) (v : Count) : (s.setBitlen v).baseSlot = s.baseSlot := rfl
@[simp] theorem State.setBitlen_inputs (s : State) (v : Count) : (s.setBitlen v).inputs = s.inputs := rfl
@[simp] theorem State.setBitlen_responses (s : State) (v : Count) : (s.setBitlen v).responses = s.responses := rfl

@[simp] theorem State.setPhase_h (s : State) (v : Phase) : (s.setPhase v).h = s.h := rfl
@[simp] theorem State.setPhase_buf (s : State) (v : Phase) : (s.setPhase v).buf = s.buf := rfl
@[simp] theorem State.setPhase_bitlen (s : State) (v : Phase) : (s.setPhase v).bitlen = s.bitlen := rfl
@[simp] theorem State.setPhase_phase (s : State) (v : Phase) : (s.setPhase v).phase = v := rfl
@[simp] theorem State.setPhase_errMisuse (s : State) (v : Phase) : (s.setPhase v).errMisuse = s.errMisuse := rfl
@[simp] theorem State.setPhase_errIllegal (s : State) (v : Phase) : (s.setPhase v).errIllegal = s.errIllegal := rfl
@[simp] theorem State.setPhase_cause (s : State) (v : Phase) : (s.setPhase v).cause = s.cause := rfl
@[simp] theorem State.setPhase_baseSlot (s : State) (v : Phase) : (s.setPhase v).baseSlot = s.baseSlot := rfl
@[simp] theorem State.setPhase_inputs (s : State) (v : Phase) : (s.setPhase v).inputs = s.inputs := rfl
@[simp] theorem State.setPhase_responses (s : State) (v : Phase) : (s.setPhase v).responses = s.responses := rfl

@[simp] theorem State.setErrMisuse_h (s : State) (v : Bool) : (s.setErrMisuse v).h = s.h := rfl
@[simp] theorem State.setErrMisuse_buf (s : State) (v : Bool) : (s.setErrMisuse v).buf = s.buf := rfl
@[simp] theorem State.setErrMisuse_bitlen (s : State) (v : Bool) : (s.setErrMisuse v).bitlen = s.bitlen := rfl
@[simp] theorem State.setErrMisuse_phase (s : State) (v : Bool) : (s.setErrMisuse v).phase = s.phase := rfl
@[simp] theorem State.setErrMisuse_errMisuse (s : State) (v : Bool) : (s.setErrMisuse v).errMisuse = v := rfl
@[simp] theorem State.setErrMisuse_errIllegal (s : State) (v : Bool) : (s.setErrMisuse v).errIllegal = s.errIllegal := rfl
@[simp] theorem State.setErrMisuse_cause (s : State) (v : Bool) : (s.setErrMisuse v).cause = s.cause := rfl
@[simp] theorem State.setErrMisuse_baseSlot (s : State) (v : Bool) : (s.setErrMisuse v).baseSlot = s.baseSlot := rfl
@[simp] theorem State.setErrMisuse_inputs (s : State) (v : Bool) : (s.setErrMisuse v).inputs = s.inputs := rfl
@[simp] theorem State.setErrMisuse_responses (s : State) (v : Bool) : (s.setErrMisuse v).responses = s.responses := rfl

@[simp] theorem State.setErrIllegal_h (s : State) (v : Bool) : (s.setErrIllegal v).h = s.h := rfl
@[simp] theorem State.setErrIllegal_buf (s : State) (v : Bool) : (s.setErrIllegal v).buf = s.buf := rfl
@[simp] theorem State.setErrIllegal_bitlen (s : State) (v : Bool) : (s.setErrIllegal v).bitlen = s.bitlen := rfl
@[simp] theorem State.setErrIllegal_phase (s : State) (v : Bool) : (s.setErrIllegal v).phase = s.phase := rfl
@[simp] theorem State.setErrIllegal_errMisuse (s : State) (v : Bool) : (s.setErrIllegal v).errMisuse = s.errMisuse := rfl
@[simp] theorem State.setErrIllegal_errIllegal (s : State) (v : Bool) : (s.setErrIllegal v).errIllegal = v := rfl
@[simp] theorem State.setErrIllegal_cause (s : State) (v : Bool) : (s.setErrIllegal v).cause = s.cause := rfl
@[simp] theorem State.setErrIllegal_baseSlot (s : State) (v : Bool) : (s.setErrIllegal v).baseSlot = s.baseSlot := rfl
@[simp] theorem State.setErrIllegal_inputs (s : State) (v : Bool) : (s.setErrIllegal v).inputs = s.inputs := rfl
@[simp] theorem State.setErrIllegal_responses (s : State) (v : Bool) : (s.setErrIllegal v).responses = s.responses := rfl

@[simp] theorem State.setCause_h (s : State) (v : BitVec 4) : (s.setCause v).h = s.h := rfl
@[simp] theorem State.setCause_buf (s : State) (v : BitVec 4) : (s.setCause v).buf = s.buf := rfl
@[simp] theorem State.setCause_bitlen (s : State) (v : BitVec 4) : (s.setCause v).bitlen = s.bitlen := rfl
@[simp] theorem State.setCause_phase (s : State) (v : BitVec 4) : (s.setCause v).phase = s.phase := rfl
@[simp] theorem State.setCause_errMisuse (s : State) (v : BitVec 4) : (s.setCause v).errMisuse = s.errMisuse := rfl
@[simp] theorem State.setCause_errIllegal (s : State) (v : BitVec 4) : (s.setCause v).errIllegal = s.errIllegal := rfl
@[simp] theorem State.setCause_cause (s : State) (v : BitVec 4) : (s.setCause v).cause = v := rfl
@[simp] theorem State.setCause_baseSlot (s : State) (v : BitVec 4) : (s.setCause v).baseSlot = s.baseSlot := rfl
@[simp] theorem State.setCause_inputs (s : State) (v : BitVec 4) : (s.setCause v).inputs = s.inputs := rfl
@[simp] theorem State.setCause_responses (s : State) (v : BitVec 4) : (s.setCause v).responses = s.responses := rfl

@[simp] theorem State.setInputs_h (s : State) (v : List Event) : (s.setInputs v).h = s.h := rfl
@[simp] theorem State.setInputs_buf (s : State) (v : List Event) : (s.setInputs v).buf = s.buf := rfl
@[simp] theorem State.setInputs_bitlen (s : State) (v : List Event) : (s.setInputs v).bitlen = s.bitlen := rfl
@[simp] theorem State.setInputs_phase (s : State) (v : List Event) : (s.setInputs v).phase = s.phase := rfl
@[simp] theorem State.setInputs_errMisuse (s : State) (v : List Event) : (s.setInputs v).errMisuse = s.errMisuse := rfl
@[simp] theorem State.setInputs_errIllegal (s : State) (v : List Event) : (s.setInputs v).errIllegal = s.errIllegal := rfl
@[simp] theorem State.setInputs_cause (s : State) (v : List Event) : (s.setInputs v).cause = s.cause := rfl
@[simp] theorem State.setInputs_baseSlot (s : State) (v : List Event) : (s.setInputs v).baseSlot = s.baseSlot := rfl
@[simp] theorem State.setInputs_inputs (s : State) (v : List Event) : (s.setInputs v).inputs = v := rfl
@[simp] theorem State.setInputs_responses (s : State) (v : List Event) : (s.setInputs v).responses = s.responses := rfl

@[simp] theorem State.respond_h (s : State) (v : Response) : (s.respond v).h = s.h := rfl
@[simp] theorem State.respond_buf (s : State) (v : Response) : (s.respond v).buf = s.buf := rfl
@[simp] theorem State.respond_bitlen (s : State) (v : Response) : (s.respond v).bitlen = s.bitlen := rfl
@[simp] theorem State.respond_phase (s : State) (v : Response) : (s.respond v).phase = s.phase := rfl
@[simp] theorem State.respond_errMisuse (s : State) (v : Response) : (s.respond v).errMisuse = s.errMisuse := rfl
@[simp] theorem State.respond_errIllegal (s : State) (v : Response) : (s.respond v).errIllegal = s.errIllegal := rfl
@[simp] theorem State.respond_cause (s : State) (v : Response) : (s.respond v).cause = s.cause := rfl
@[simp] theorem State.respond_baseSlot (s : State) (v : Response) : (s.respond v).baseSlot = s.baseSlot := rfl
@[simp] theorem State.respond_inputs (s : State) (v : Response) : (s.respond v).inputs = s.inputs := rfl
@[simp] theorem State.respond_responses (s : State) (v : Response) : (s.respond v).responses = s.responses ++ [v] := rfl

@[simp] theorem State.setInputs_base (s : State) (v : List Event) : (s.setInputs v).base = s.base := rfl

@[simp] theorem State.respond_base (s : State) (v : Response) : (s.respond v).base = s.base := rfl

@[simp] theorem State.setInputs_setInputs (s : State) (v w : List Event) : (s.setInputs v).setInputs w = s.setInputs w := rfl

@[simp] theorem State.setInputs_self (s : State) : s.setInputs s.inputs = s := rfl

end Sys2Proof.Machine
end

