-- ==== Sys2Proof/Laws/Ops.lean ====
section
/-! SUPPORT. One lemma per shared operation: everything it can do, as a record of what it writes. -/

namespace Sys2Proof.Machine

/-! ## Operations of Machine/Ops.lean -/

theorem State.clearFaults_eq (s : State) :
    s.clearFaults = { s with errMisuse := false, errIllegal := false, cause := 0#4 } := rfl

theorem State.makeFresh_eq (s : State) :
    s.makeFresh = { s with h := initialHash, buf := [], bitlen := 0#64, phase := .fresh,
                           errMisuse := false, errIllegal := false, cause := 0#4 } := rfl

theorem State.compressBlock_eq (s : State) (B : List Byte) :
    s.compressBlock B = { s with h := compress s.h B } := rfl

theorem State.addBits_eq (s : State) (n : Nat) :
    s.addBits n = { s with bitlen := s.bitlen + BitVec.ofNat 64 n } := by
  simp only [State.addBits, State.setBitlen, add64]

theorem State.drainBlock_eq (s : State) :
    s.drainBlock = { s with h := compress s.h s.buf, bitlen := s.bitlen + 512#64, buf := [] } := by
  simp only [State.drainBlock, State.addBits_eq, State.compressBlock_eq, State.setBuf]

theorem State.appendByte_full (s : State) (d : Byte) (hl : s.buf.length = 63) :
    s.appendByte d = { s with h := compress s.h (s.buf ++ [d]), bitlen := s.bitlen + 512#64, buf := [] } := by
  simp [State.appendByte, hl, State.drainBlock_eq, State.setBuf]

theorem State.appendByte_notFull (s : State) (d : Byte) (hl : s.buf.length ≠ 63) :
    s.appendByte d = { s with buf := s.buf ++ [d] } := by
  have hn : ¬(s.buf ++ [d]).length = 64 := by simpa using hl
  simp only [State.appendByte, State.setBuf_buf, Config.blockBytes, hn, if_false]
  rfl

theorem State.raise_eq (s : State) (f : EngineFault) :
    s.raise f = { s with errMisuse := s.errMisuse || decide (f ≠ .illegalCommand)
                         errIllegal := s.errIllegal || decide (f = .illegalCommand)
                         cause := if s.cause = 0#4 then f.code else s.cause } := by
  cases f <;> by_cases hc : s.cause = 0#4 <;>
    simp [State.raise, State.setFaultFlag, State.setErrMisuse, State.setErrIllegal, State.setCause, hc]

/-- Every operation on BUF keeps its canonical form: emptying it, and appending one byte. -/
theorem Memory.wf_nil : Memory.wf [] = true := rfl

theorem Memory.wf_appendByte (s : State) (d : Byte) (hw : Memory.wf s.buf = true) :
    Memory.wf (s.appendByte d).buf = true := by
  by_cases hl : s.buf.length = 63
  · simp [State.appendByte_full s d hl, Memory.wf]
  · simp only [Memory.wf, decide_eq_true_eq] at hw
    simp [State.appendByte_notFull s d hl, Memory.wf]
    omega

theorem Memory.wf_reset : Memory.wf State.reset.buf = true := rfl

/-! ## What the meanings answer -/

theorem execInit_eq (s : State) : execInit s = .next s.makeFresh := rfl

theorem execAbsorb_of_open (d : Byte) (s : State) (hp : s.phase ≠ .finalized) :
    execAbsorb d s = .next ((s.appendByte d).setPhase .absorbing) := if_neg hp

theorem execAbsorb_of_finalized (d : Byte) (s : State) (hp : s.phase = .finalized) :
    execAbsorb d s = .next (s.raise .absorbAfterFinal) := if_pos hp

theorem execFinal_of_open (s : State) (hp : s.phase ≠ .finalized) : execFinal s = .next s.finish := if_neg hp

theorem execFinal_of_finalized (s : State) (hp : s.phase = .finalized) :
    execFinal s = .next (s.raise .finalAfterFinal) := if_pos hp

/-- The state a command makes: every command answers a next state. -/
def after (i : Instr) (s : State) : State :=
  match i with
  | .init => s.makeFresh
  | .absorb d => if s.phase = .finalized then s.raise .absorbAfterFinal else (s.appendByte d).setPhase .absorbing
  | .final => if s.phase = .finalized then s.raise .finalAfterFinal else s.finish

theorem exec_eq_after (i : Instr) (s : State) : exec i s = .next (after i s) := by
  cases i with
  | init => rfl
  | absorb d => by_cases hp : s.phase = .finalized <;> simp [exec, execAbsorb, after, hp]
  | final => by_cases hp : s.phase = .finalized <;> simp [exec, execFinal, after, hp]

/-! ## Accesses -/

theorem inWindow_iff (a : Access) (base : Nat) :
    a.inWindow base = true ↔ base ≤ a.addr ∧ a.addr ≤ base + 63 := by
  simp [Access.inWindow]

theorem admission_outside (a : Access) (base : Nat) (h : a.inWindow base = false) :
    a.admission base = .outside := by simp [Access.admission, h]

theorem admission_admitted (a : Access) (base : Nat) (h : a.inWindow base = true) (hn : a.nbytes = 4)
    (ha : (a.addr - base) % 4 = 0) : a.admission base = .admitted (a.addr - base) := by
  simp [Access.admission, h, hn, ha]

theorem admission_busError (a : Access) (base : Nat) (h : a.inWindow base = true)
    (hn : a.nbytes ≠ 4 ∨ (a.addr - base) % 4 ≠ 0) : a.admission base = .busError := by
  simp only [Access.admission, h, Bool.not_true, Bool.false_eq_true, if_false]
  exact if_neg (by omega)

/-- An offset of the window: an aligned 4-byte access there is admitted. -/
theorem admission_read (base off : Nat) (hoff : off < 64) (hal : off % 4 = 0) :
    (Access.read (base + off) 4).admission base = .admitted off := by
  have hw : (Access.read (base + off) 4).inWindow base = true := by
    rw [inWindow_iff]; simp only [Access.addr]; omega
  rw [admission_admitted _ _ hw rfl (by simpa [Access.addr] using hal)]
  simp [Access.addr]

theorem admission_write (base off : Nat) (v : Word) (hoff : off < 64) (hal : off % 4 = 0) :
    (Access.write (base + off) 4 v).admission base = .admitted off := by
  have hw : (Access.write (base + off) 4 v).inWindow base = true := by
    rw [inWindow_iff]; simp only [Access.addr]; omega
  rw [admission_admitted _ _ hw rfl (by simpa [Access.addr] using hal)]
  simp [Access.addr]

theorem serveAccess_outside (a : Access) (s : State) (h : a.inWindow s.base = false) :
    serveAccess a s = .next s := by simp [serveAccess, admission_outside a s.base h]

theorem serveAccess_busError (a : Access) (s : State) (h : a.inWindow s.base = true)
    (hn : a.nbytes ≠ 4 ∨ (a.addr - s.base) % 4 ≠ 0) : serveAccess a s = .next (s.respond .busError) := by
  simp [serveAccess, admission_busError a s.base h hn]

theorem serveAccess_read (s : State) (off : Nat) (hoff : off < 64) (hal : off % 4 = 0) :
    serveAccess (.read (s.base + off) 4) s = .next (s.respond (.data (s.readRegister (registerAt off)))) := by
  simp [serveAccess, admission_read s.base off hoff hal, serveAdmitted]

theorem serveAccess_write (s : State) (off : Nat) (v : Word) (hoff : off < 64) (hal : off % 4 = 0) :
    serveAccess (.write (s.base + off) 4 v) s = writeRegister (registerAt off) v (s.respond .done) := by
  simp [serveAccess, admission_write s.base off v hoff hal, serveAdmitted]

theorem serveAccess_command (s : State) (w : Word) :
    serveAccess (commandWrite s.base w) s = executeWord w (s.respond .done) :=
  serveAccess_write s 0 w (by omega) rfl

/-- Only offset 0x00 is CMD. -/
theorem registerAt_ne_cmd (off : Nat) (h : off ≠ 0) : registerAt off ≠ .cmd := by
  unfold registerAt
  split
  · contradiction
  · split
    · simp
    · split <;> simp

theorem writeRegister_of_ne_cmd (r : Register) (v : Word) (s : State) (h : r ≠ .cmd) :
    writeRegister r v s = .next s := by
  cases r <;> first | rfl | contradiction

/-- Execution of a command word answers a next state: of the command it decodes to, or of the fault. -/
theorem executeWord_cases (w : Word) (s : State) :
    (∃ i, decode w = .command i ∧ executeWord w s = .next (after i s)) ∨
      (∃ why, decode w = .illegal why ∧ executeWord w s = .next (s.raise .illegalCommand)) := by
  cases hd : decode w with
  | command i => exact .inl ⟨i, rfl, by simp [executeWord, hd, exec_eq_after]⟩
  | illegal why => exact .inr ⟨why, rfl, by simp [executeWord, hd]⟩

/-- All that a host access can do: nothing (not the engine's); an answer with no other effect (a bus error, a read, or a
write of a register other than CMD); or an admitted write of a word to CMD. -/
theorem serveAccess_cases (a : Access) (s : State) :
    (a.inWindow s.base = false ∧ serveAccess a s = .next s) ∨
      (a.inWindow s.base = true ∧ (∀ w, a ≠ commandWrite s.base w) ∧ ∃ r, serveAccess a s = .next (s.respond r)) ∨
      (∃ w, a = commandWrite s.base w ∧ serveAccess a s = executeWord w (s.respond .done)) := by
  cases hw : a.inWindow s.base with
  | false => exact .inl ⟨rfl, serveAccess_outside a s hw⟩
  | true =>
    right
    by_cases hn : a.nbytes = 4 ∧ (a.addr - s.base) % 4 = 0
    · cases a with
      | read addr n =>
        refine .inl ⟨rfl, by simp [commandWrite], .data (s.readRegister (registerAt (addr - s.base))), ?_⟩
        simp only [serveAccess, admission_admitted _ _ hw hn.1 hn.2, serveAdmitted, Access.addr]
      | write addr n v =>
        obtain ⟨h4, hal⟩ := hn
        simp only [Access.nbytes, Access.addr] at h4 hal
        simp only [inWindow_iff, Access.addr] at hw
        subst h4
        obtain ⟨off, rfl⟩ : ∃ off, addr = s.base + off := ⟨addr - s.base, by omega⟩
        by_cases h0 : off = 0
        · subst h0
          exact .inr ⟨v, rfl, serveAccess_command s v⟩
        · refine .inl ⟨rfl, by simp [commandWrite, h0], .done, ?_⟩
          rw [serveAccess_write s off v (by omega) (by omega),
            writeRegister_of_ne_cmd _ _ _ (registerAt_ne_cmd off h0)]
    · refine .inl ⟨rfl, ?_, .busError, serveAccess_busError a s hw (by omega)⟩
      rintro w rfl
      simp [commandWrite, Access.nbytes, Access.addr] at hn

end Sys2Proof.Machine
end

