-- ==== Sys2Proof/Laws/Step.lean ====
section
/-! SUPPORT. What a step can do, once: every invariant and every whole-machine rule is derived from `step_cases`. -/

namespace Sys2Proof.Machine

theorem step_idle (s : State) (h : s.inputs = []) : step s = .next s := by
  simp [step, serveNext, h]

theorem step_reset (s : State) (l : List Access) (rest : List Event) (h : s.inputs = .reset l :: rest) :
    step s = .next (s.setInputs rest).makeFresh := by
  simp [step, serveNext, h, serveEvent]

theorem step_access (s : State) (a : Access) (rest : List Event) (h : s.inputs = .access a :: rest) :
    step s = serveAccess a (s.setInputs rest) := by
  simp [step, serveNext, h, serveEvent]

theorem step_command (s : State) (w : Word) (rest : List Event)
    (h : s.inputs = .access (commandWrite s.base w) :: rest) :
    step s = executeWord w ((s.setInputs rest).respond .done) := by
  rw [step_access s _ rest h]
  exact serveAccess_command (s.setInputs rest) w

/-- All that a step can do: hold (nothing to serve); reset; pass over an access to elsewhere; answer an access that is no
write to CMD and change nothing else; or execute a command word. -/
theorem step_cases (s : State) :
    (s.inputs = [] ∧ step s = .next s) ∨
      ∃ e rest, s.inputs = e :: rest ∧
        ((∃ l, e = .reset l ∧ step s = .next (s.setInputs rest).makeFresh) ∨
          (∃ a, e = .access a ∧ a.inWindow s.base = false ∧ step s = .next (s.setInputs rest)) ∨
          (∃ a r, e = .access a ∧ a.inWindow s.base = true ∧ (∀ w, a ≠ commandWrite s.base w) ∧
            step s = .next ((s.setInputs rest).respond r)) ∨
          (∃ w, e = .access (commandWrite s.base w) ∧
            step s = executeWord w ((s.setInputs rest).respond .done))) := by
  cases h : s.inputs with
  | nil => exact .inl ⟨rfl, step_idle s h⟩
  | cons e rest =>
    refine .inr ⟨e, rest, rfl, ?_⟩
    cases e with
    | reset l => exact .inl ⟨l, rfl, step_reset s l rest h⟩
    | access a =>
      right
      have hs := step_access s a rest h
      obtain ⟨ho, he⟩ | ⟨hi, hc, r, he⟩ | ⟨w, rfl, he⟩ := serveAccess_cases a (s.setInputs rest)
      · exact .inl ⟨a, rfl, ho, hs.trans he⟩
      · exact .inr (.inl ⟨a, r, rfl, hi, hc, hs.trans he⟩)
      · exact .inr (.inr ⟨w, rfl, hs.trans he⟩)

/-- Every step answers a next state. -/
theorem step_total (s : State) : ∃ t, step s = .next t := by
  obtain ⟨_, h⟩ | ⟨e, rest, _, ⟨_, _, h⟩ | ⟨_, _, _, h⟩ | ⟨_, _, _, _, _, h⟩ | ⟨w, _, h⟩⟩ := step_cases s
  · exact ⟨_, h⟩
  · exact ⟨_, h⟩
  · exact ⟨_, h⟩
  · exact ⟨_, h⟩
  · obtain ⟨i, _, he⟩ | ⟨_, _, he⟩ := executeWord_cases w ((s.setInputs rest).respond .done)
    · exact ⟨_, h.trans he⟩
    · exact ⟨_, h.trans he⟩

/-- The buffer's canonical form is kept by every command. -/
theorem Memory.wf_after (i : Instr) (s : State) (hw : Memory.wf s.buf = true) : Memory.wf (after i s).buf = true := by
  cases i with
  | init => rfl
  | absorb d =>
    by_cases hp : s.phase = .finalized
    · simpa [after, hp, State.raise_eq] using hw
    · simpa [after, hp] using Memory.wf_appendByte s d hw
  | final =>
    by_cases hp : s.phase = .finalized
    · simpa [after, hp, State.raise_eq] using hw
    · simp [after, hp, State.finish, Memory.wf]

end Sys2Proof.Machine
end

