-- ==== Sys2Proof/Laws/Frame.lean ====
section
/-! SUPPORT. Frames of the shared operations, and that a command neither reads nor writes the model's own fields. -/

namespace Sys2Proof.Machine

theorem State.raise_frame (s : State) (f : EngineFault) : s.SameOutside (s.raise f) ∧ s.SameHash (s.raise f) := by
  rw [State.raise_eq]; exact ⟨⟨rfl, rfl, rfl⟩, rfl, rfl, rfl, rfl⟩

theorem State.appendByte_frame (s : State) (d : Byte) :
    s.SameOutside (s.appendByte d) ∧ s.SameFaults (s.appendByte d) ∧ (s.appendByte d).phase = s.phase := by
  by_cases h : s.buf.length = 63
  · rw [State.appendByte_full s d h]; exact ⟨⟨rfl, rfl, rfl⟩, ⟨rfl, rfl, rfl⟩, rfl⟩
  · rw [State.appendByte_notFull s d h]; exact ⟨⟨rfl, rfl, rfl⟩, ⟨rfl, rfl, rfl⟩, rfl⟩

theorem State.finish_frame (s : State) :
    s.SameOutside s.finish ∧ s.SameFaults s.finish ∧ s.finish.phase = .finalized ∧ s.finish.buf = [] := by
  simp only [State.finish, State.countTail, State.addBits_eq, State.compressTail, State.compressBlock_eq,
    State.SameFaults, State.SameOutside]
  split <;> exact ⟨⟨rfl, rfl, rfl⟩, ⟨rfl, rfl, rfl⟩, rfl, rfl⟩

/-- A command's effect does not depend on the model's own fields. -/
theorem after_congr (i : Instr) (s : State) (b : Nat) (inp : List Event) (r : List Response) :
    after i { s with baseSlot := b, inputs := inp, responses := r } =
      { after i s with baseSlot := b, inputs := inp, responses := r } := by
  cases i with
  | init => rfl
  | absorb d =>
    by_cases hp : s.phase = .finalized
    · simp only [after, hp, if_true, State.raise_eq]
    · simp only [after, hp, if_false]
      by_cases hl : s.buf.length = 63
      · rw [State.appendByte_full s d hl,
          State.appendByte_full { s with baseSlot := b, inputs := inp, responses := r } d hl]; rfl
      · rw [State.appendByte_notFull s d hl,
          State.appendByte_notFull { s with baseSlot := b, inputs := inp, responses := r } d hl]; rfl
  | final =>
    by_cases hp : s.phase = .finalized
    · simp only [after, hp, if_true, State.raise_eq]
    · simp only [after, hp, if_false, State.finish, State.countTail, State.addBits_eq, State.compressTail,
        State.compressBlock_eq]
      split <;> rfl

/-- A command run in the state from which its write is taken (Machine/Bus.lean `serveAdmitted`): its effect on the state before,
beside the event taken and its completion answered. -/
theorem after_served (i : Instr) (s : State) (rest : List Event) :
    after i ((s.setInputs rest).respond .done) =
      { after i s with baseSlot := s.baseSlot, inputs := rest, responses := s.responses ++ [.done] } := by
  rw [show (s.setInputs rest).respond .done =
    { s with baseSlot := s.baseSlot, inputs := rest, responses := s.responses ++ [.done] } from rfl, after_congr]

end Sys2Proof.Machine
end

