-- ==== Sys2Proof/Laws/Message.lean ====
section
/-! SUPPORT. Blocks of a byte sequence compressed in order, and the shape of FINAL's tail: the lemmas that relate the engine's
byte-by-byte work to a whole message. -/

namespace Sys2Proof.Machine

theorem hashBlocks_add (m n : Nat) (H : Accumulator) (bs : List Byte) :
    hashBlocks (m + n) H bs = hashBlocks n (hashBlocks m H bs) (bs.drop (64 * m)) := by
  induction m generalizing H bs with
  | zero => simp [hashBlocks]
  | succ m ih =>
    rw [Nat.add_right_comm, hashBlocks, ih, hashBlocks, List.drop_drop]
    congr 2; omega

/-- One more block. -/
theorem hashBlocks_succ (n : Nat) (H : Accumulator) (bs : List Byte) :
    hashBlocks (n + 1) H bs = compress (hashBlocks n H bs) ((bs.drop (64 * n)).take 64) := by
  rw [hashBlocks_add]; rfl

/-- Bytes after the blocks do not matter. -/
theorem hashBlocks_append (n : Nat) (H : Accumulator) (bs cs : List Byte) (h : 64 * n ≤ bs.length) :
    hashBlocks n H (bs ++ cs) = hashBlocks n H bs := by
  induction n generalizing H bs with
  | zero => rfl
  | succ n ih =>
    rw [hashBlocks, hashBlocks, List.take_append_of_le_length (by omega), List.drop_append_of_le_length (by omega),
      ih _ _ (by rw [List.length_drop]; omega)]

@[simp] theorem zeros_length (n : Nat) : (zeros n).length = n := by simp [zeros]

@[simp] theorem bytesBe64_length (v : Count) : (bytesBe64 v).length = 8 := by simp [bytesBe64]

theorem finalTail_length (buf : Memory) (L : Count) : (finalTail buf L).length = buf.length + 9 + padZeros buf.length := by
  simp only [finalTail, paddedTail, List.length_append, zeros_length, bytesBe64_length, List.length_cons, List.length_nil]
  omega

theorem hashBlocks_one (H : Accumulator) (bs : List Byte) : hashBlocks 1 H bs = compress H (bs.take 64) := by
  rw [hashBlocks, hashBlocks]

theorem hashBlocks_two (H : Accumulator) (bs : List Byte) :
    hashBlocks 2 H bs = compress (compress H (bs.take 64)) ((bs.drop 64).take 64) := by
  rw [hashBlocks, hashBlocks_one]

/-- FINAL compresses the whole blocks of its tail. -/
theorem compressTail_eq (s : State) (tail : List Byte) (h : tail.length = 64 ∨ tail.length = 128) :
    s.compressTail tail = { s with h := hashBlocks (tail.length / 64) s.h tail } := by
  rcases h with h | h
  · rw [show tail.length / 64 = 1 by omega, hashBlocks_one, State.compressTail, if_neg (by omega),
      State.compressBlock_eq]
  · rw [show tail.length / 64 = 2 by omega, hashBlocks_two, State.compressTail, if_pos h,
      State.compressBlock_eq, State.compressBlock_eq]

/-- With a canonical BUF the tail is one block or two. -/
theorem finalTail_length_cases (buf : Memory) (L : Count) (hw : Memory.wf buf = true) :
    (finalTail buf L).length = 64 ∨ (finalTail buf L).length = 128 := by
  simp only [Memory.wf, decide_eq_true_eq] at hw
  rw [finalTail_length, padZeros]
  split <;> omega

/-- All that FINAL writes. -/
theorem State.finish_eq (s : State) (hw : Memory.wf s.buf = true) :
    s.finish = { s with
      h := hashBlocks ((finalTail s.buf (s.bitlen + BitVec.ofNat 64 (8 * s.buf.length))).length / 64) s.h
        (finalTail s.buf (s.bitlen + BitVec.ofNat 64 (8 * s.buf.length)))
      bitlen := s.bitlen + BitVec.ofNat 64 (8 * s.buf.length), buf := [], phase := .finalized } := by
  simp only [State.finish, State.countTail, State.addBits_eq]
  rw [compressTail_eq _ _ (finalTail_length_cases _ _ hw)]
  rfl

end Sys2Proof.Machine
end

