-- ==== Sys2Proof/Laws/PerInstr.lean ====
section
/-! SUPPORT. Per-instruction families: the word of every command has the bits of its row of spec/opcode_table.json, and
zeros in RSV (30_encoding.md R45, R47). -/

namespace Sys2Proof.Laws.TableRow

/-- The row's `mask` (30_encoding.md R47). -/
def mask : Instr → Word
  | .init => 0xFFFFFFFF#32
  | .absorb _ => 0xFFFFFF00#32
  | .final => 0xFFFFFFFF#32

/-- The row's `match` (30_encoding.md R47). -/
def pattern : Instr → Word
  | .init => 0x10000000#32
  | .absorb _ => 0x20000000#32
  | .final => 0x30000000#32

/-- A command's word lies in its own row of the table, and its RSV field is 0. -/
def Statement (i : Instr) : Prop := encode i &&& mask i = pattern i ∧ (encode i).extractLsb' 8 20 = 0#20

theorem init : Statement .init := by unfold Statement; decide

theorem absorb (data : Byte) : Statement (.absorb data) := by
  revert data; unfold Statement; decide

theorem final : Statement .final := by unfold Statement; decide

end Sys2Proof.Laws.TableRow
end

