-- ==== Sys2Proof/Tests/Slice0.lean ====
section
/-! SUPPORT. Small tests, their expected values taken from spec/95_test_vectors.md or the rule named, and one witness for the
hypotheses of each obligation that has some. -/

namespace Sys2Proof.Tests

open Sys2Proof Sys2Proof.Machine

/-! ## Helpers -/

/-- An instance at BASE 0x40 in a given phase with given pending bytes and inputs, else as after reset. -/
def engine (p : Phase) (buf : Memory) (ins : List Event) : State :=
  { State.reset with phase := p, buf := buf, inputs := ins, baseSlot := 1 }

/-- `engine` with a host read as its one input. -/
def reading (p : Phase) (buf : Memory) (addr n : Nat) : State := engine p buf [.access (.read addr n)]

/-- `engine` with a host write as its one input. -/
def writing (p : Phase) (buf : Memory) (addr n : Nat) (v : Word) : State := engine p buf [.access (.write addr n v)]

/-- A write of a word to CMD of the instance at 0x40. -/
def cmd (w : Word) : Event := .access (commandWrite 0x40 w)

/-- The next state, if the machine goes on. -/
def next? (o : Host.Outcome State Fault Refusal) : Option State :=
  match o with
  | .next s => some s
  | .fault _ => none
  | .refused _ => none

/-- Bytes of ASCII text. -/
def ascii (t : List Char) : List Byte := t.map fun c => BitVec.ofNat 8 c.toNat

/-- The digest words of "abc" (95_test_vectors.md 1.1). -/
def abcDigest : Accumulator :=
  #v[0xba7816bf#32, 0x8f01cfea#32, 0x414140de#32, 0x5dae2223#32, 0xb00361a3#32, 0x96177a9c#32, 0xb410ff61#32, 0xf20015ad#32]

/-- An engine that holds the digest of "abc", with given inputs. -/
def finished (ins : List Event) : State := { engine .finalized [] ins with h := abcDigest, bitlen := 24#64 }

/-! ## Well-formed and ill-formed words (30_encoding.md R45, R49) -/

theorem test_wellFormed_absorb : Fields.wellFormed ⟨0x2#4, 0#20, 0xff#8⟩ = true := by decide
theorem test_illFormed_op : Fields.opAssigned ⟨0x4#4, 0#20, 0#8⟩ = false ∧ Fields.wellFormed ⟨0x4#4, 0#20, 0#8⟩ = false := by decide
theorem test_illFormed_rsv : Fields.rsvZero ⟨0x2#4, 1#20, 0x61#8⟩ = false ∧ Fields.wellFormed ⟨0x2#4, 1#20, 0x61#8⟩ = false := by decide
theorem test_illFormed_data : Fields.dataAllowed ⟨0x3#4, 0#20, 0x80#8⟩ = false ∧ Fields.wellFormed ⟨0x3#4, 0#20, 0x80#8⟩ = false := by decide
theorem test_wellFormed_instr : Instr.wellFormed (.absorb 0x80#8) = true := by decide

/-! ## Decoding, words written out from R45's pattern OOOO RRRR RRRR RRRR RRRR RRRR DDDD DDDD -/

theorem test_decode_init : decode 0b0001_0000_0000_0000_0000_0000_0000_0000#32 = .command .init := by decide
theorem test_decode_absorb : decode 0b0010_0000_0000_0000_0000_0000_0110_0001#32 = .command (.absorb 0x61#8) := by decide
theorem test_decode_final : decode 0b0011_0000_0000_0000_0000_0000_0000_0000#32 = .command .final := by decide
theorem test_decode_opUnassigned :
    decode 0x00000061#32 = .illegal .opUnassigned ∧ decode 0x40000000#32 = .illegal .opUnassigned ∧
    decode 0xffffffff#32 = .illegal .opUnassigned := by decide
theorem test_decode_rsvNonzero :
    decode 0x10000100#32 = .illegal .rsvNonzero ∧ decode 0x21000061#32 = .illegal .rsvNonzero ∧
    decode 0x38000000#32 = .illegal .rsvNonzero := by decide
theorem test_decode_dataNonzero :
    decode 0x10000001#32 = .illegal .dataNonzero ∧ decode 0x30000080#32 = .illegal .dataNonzero := by decide
theorem test_encode_absorb : encode (.absorb 0x61#8) = 0x20000061#32 := by decide

/-! ## Functions (examples of 40_functions.md R53 to R63) -/

theorem test_add32 : add32 0x6a09e667#32 0x5d6aebcd#32 = 0xc774d234#32 := by decide
theorem test_add64_wraps : add64 0xfffffffffffffe00#64 512#64 = 0#64 := by decide
theorem test_rotr : rotr 0x12345678#32 1 = 0x091a2b3c#32 ∧ rotr 1#32 1 = 0x80000000#32 := by decide
theorem test_shr : shr32 0x12345678#32 3 = 0x02468acf#32 := by decide
theorem test_ch : ch 0x510e527f#32 0x9b05688c#32 0x1f83d9ab#32 = 0x1f85c98c#32 := by decide
theorem test_maj : maj 0x6a09e667#32 0xbb67ae85#32 0x3c6ef372#32 = 0x3a6fe667#32 := by decide
theorem test_bigSigma : bigSigma0 0x6a09e667#32 = 0xce20b47e#32 ∧ bigSigma1 0x510e527f#32 = 0x3587272b#32 := by decide
theorem test_smallSigma : smallSigma0 0x12345678#32 = 0xe7fce6ee#32 ∧ smallSigma1 0x12345678#32 = 0xa1f78649#32 := by decide

/-! ## The Block Compressor (95_test_vectors.md 3.2, 5.4; 1.1 through the padded block of "abc") -/

theorem test_compress_zero_block : compress initialHash (zeros 64) =
    #v[0xda5698be#32, 0x17b9b469#32, 0x62335799#32, 0x779fbeca#32, 0x8ce5d491#32, 0xc0d26243#32, 0xbafef9ea#32, 0x1837a9d8#32] := by
  decide +kernel
theorem test_compress_zero_hash : compress (Vector.replicate 8 0#32) (zeros 64) =
    #v[0x7ca51614#32, 0x425c3ba8#32, 0xce54dd2f#32, 0xc2020ae7#32, 0xb6e574d1#32, 0x98136d0f#32, 0xae7e26cc#32, 0xbf0be7a6#32] := by
  decide +kernel
theorem test_finalTail_55 : (finalTail (List.replicate 55 0x61#8) 440#64).drop 48 =
    [0x61#8, 0x61#8, 0x61#8, 0x61#8, 0x61#8, 0x61#8, 0x61#8, 0x80#8, 0#8, 0#8, 0#8, 0#8, 0#8, 0#8, 0x01#8, 0xb8#8] := by
  decide +kernel
theorem test_schedule_ff :
    ((schedule (List.replicate 64 0xff#8)).drop 20).take 4 = [0x1e869660#32, 0x1e869660#32, 0xb9fbad33#32, 0xda3bad30#32] := by
  decide +kernel

/-! ## The commands (95_test_vectors.md section 6) -/

/-- INIT in FINALIZED with STATUS 0002000e. -/
theorem test_init_clears :
    (next? (exec .init { finished [] with errMisuse := true, errIllegal := true, cause := 2#4 })).map
      (fun t => (t.status, t.digestWord 0, t.h)) = some (0x00000000#32, 0x00000000#32, initialHash) := by decide +kernel
/-- ABSORB 0x61 after reset. -/
theorem test_absorb_first :
    (next? (exec (.absorb 0x61#8) State.reset)).map (fun t => (t.status, t.buf)) = some (0x00000101#32, [0x61#8]) := by decide +kernel
/-- The constructed state: the 64th byte of a zero block, BITLEN wrapping to 0. -/
theorem test_absorb_block_wraps :
    (next? (exec (.absorb 0#8) { engine .absorbing (zeros 63) [] with bitlen := 0xfffffffffffffe00#64 })).map
      (fun t => (t.status, t.bitlen, t.h)) = some (0x00000001#32, 0#64,
        #v[0xda5698be#32, 0x17b9b469#32, 0x62335799#32, 0x779fbeca#32, 0x8ce5d491#32, 0xc0d26243#32, 0xbafef9ea#32, 0x1837a9d8#32]) := by
  decide +kernel
/-- FINAL of "abc". -/
theorem test_final_abc :
    (next? (exec .final (engine .absorbing [0x61#8, 0x62#8, 0x63#8] []))).map
      (fun t => (t.status, t.bitlen, t.h)) = some (0x00000002#32, 24#64, abcDigest) := by decide +kernel
/-- FINAL of the 448-bit message: two blocks (section 5.4). -/
theorem test_final_two_blocks :
    (next? (exec .final (engine .absorbing
      (ascii "abcdbcdecdefdefgefghfghighijhijkijkljklmklmnlmnomnopnopq".toList) []))).map (fun t => (t.bitlen, t.h)) =
    some (448#64, #v[0x248d6a61#32, 0xd20638b8#32, 0xe5c02693#32, 0x0c3e6039#32, 0xa33ce459#32, 0x64ff2167#32, 0xf6ecedd4#32, 0x19db06c1#32]) := by
  decide +kernel
theorem test_absorb_misuse : (next? (exec (.absorb 0x62#8) (finished []))).map State.status = some 0x00020006#32 := by decide +kernel
theorem test_final_misuse : (next? (exec .final (finished []))).map State.status = some 0x00030006#32 := by decide +kernel
theorem test_illegal_over_misuse :
    (next? (step (finished [cmd 0x30000061#32]))).map State.status = some 0x0001000a#32 := by decide +kernel
theorem test_illegal_status :
    (next? (step (engine .absorbing [0x61#8] [cmd 0x10000001#32]))).map (fun t => (t.status, t.buf)) =
      some (0x00010109#32, [0x61#8]) := by decide +kernel

/-! ## Accesses (95_test_vectors.md section 7), by the answer given -/

theorem test_read_status_reset : (next? (step (reading .fresh [] 0x44 4))).map State.responses = some [.data 0#32] := by decide +kernel
theorem test_read_misaligned : (next? (step (reading .fresh [] 0x46 4))).map State.responses = some [.busError] := by decide +kernel
theorem test_write_narrow :
    (next? (step (writing .absorbing [0x61#8] 0x40 1 0x10#32))).map (fun t => (t.responses, t.buf)) = some ([.busError], [0x61#8]) := by
  decide +kernel
theorem test_write_misaligned :
    (next? (step (writing .absorbing [0x61#8] 0x42 4 0x10000000#32))).map (fun t => (t.responses, t.buf)) =
      some ([.busError], [0x61#8]) := by decide +kernel
theorem test_read_end : (next? (step (reading .fresh [] 0x7E 4))).map State.responses = some [.busError] := by decide +kernel
theorem test_read_digest_early :
    (next? (step (reading .absorbing [0x61#8, 0x62#8, 0x63#8] 0x60 4))).map State.responses = some [.data 0#32] := by decide +kernel
theorem test_read_digest :
    (next? (step (finished [.access (.read 0x60 4)]))).map State.responses = some [.data 0xba7816bf#32] ∧
    (next? (step (finished [.access (.read 0x7C 4)]))).map State.responses = some [.data 0xf20015ad#32] := by decide +kernel
theorem test_write_digest_ignored :
    (next? (step (finished [.access (.write 0x60 4 0#32)]))).map (fun t => t.digestWord 0) = some 0xba7816bf#32 := by decide +kernel
theorem test_reset_event :
    (next? (step (finished [.reset [.read 0x60 4]]))).map (fun t => (t.h, t.phase, t.bitlen, t.responses)) =
      some (initialHash, .fresh, 0#64, []) := by decide +kernel
theorem test_withFetchWord :
    (next? (step (State.reset.withFetchWord 32 0x20000061))).map State.buf = some [0x61#8] := by decide +kernel

/-! ## Assembly text (30_encoding.md R51, R52) -/

theorem test_asm_absorb : assembleLine "absorb 'a'   ; a comment".toList = some (.command (.absorb 0x61#8)) := by decide +kernel
theorem test_asm_word : assembleLine ".word 0x40000000".toList = some (.word 0x40000000#32) := by decide +kernel
theorem test_asm_wr : assembleLine "WR CMD, 0x10000000".toList = some (.word 0x10000000#32) := by decide +kernel
theorem test_asm_rd : assembleLine "RD DIGEST7".toList = some (.readDigest 7) ∧ assembleLine "RD DIGEST8".toList = none := by decide +kernel
theorem test_asm_hash :
    (assembleLine "HASH \"ab\"".toList).map (HostLine.accesses 0x40) =
      some [.write 0x40 4 0x10000000#32, .write 0x40 4 0x20000061#32, .write 0x40 4 0x20000062#32, .write 0x40 4 0x30000000#32] := by
  decide +kernel
theorem test_asm_absorbs : assembleLine "ABSORBS 0x01, 255, 'b'".toList = some (.absorbs [0x01#8, 0xff#8, 0x62#8]) ∧
    assembleLine "ABSORB 256".toList = none := by decide +kernel

/-! ## Witnesses: a concrete case for the hypotheses of each obligation that has some, clause by clause -/

theorem witness_IllegalWordsAreReported :
    (engine .finalized [] [cmd 0x30000061#32]).inputs =
      .access (commandWrite (engine .finalized [] [cmd 0x30000061#32]).base 0x30000061#32) :: [] ∧
    (decode 0x30000061#32).instr? = none := by decide
theorem witness_DecodeInvertsEncode :
    Instr.init.wellFormed = true ∧ (Instr.absorb 0xff#8).wellFormed = true ∧ Instr.final.wellFormed = true := by decide
theorem witness_BitwiseOperationsByBit : 0 < 32 ∧ 31 < 32 := by decide
theorem witness_ShiftFillsWithZeros :
    ((3 = 3 ∨ 3 = 10) ∧ 28 < 32 ∧ 28 + 3 ≤ 31 ∧ 29 < 32 ∧ ¬29 + 3 ≤ 31) ∧
    ((10 = 3 ∨ 10 = 10) ∧ 21 < 32 ∧ 21 + 10 ≤ 31 ∧ 22 < 32 ∧ ¬22 + 10 ≤ 31) := by decide
theorem witness_RotationMovesBits : (1 ≤ 1 ∧ 1 ≤ 31) ∧ (1 ≤ 31 ∧ 31 ≤ 31) ∧ 0 < 32 ∧ 31 < 32 := by decide
theorem witness_ChooseAndMajority : 0 < 32 ∧ 31 < 32 := by decide
theorem witness_SigmasByBit : 0 < 32 ∧ 31 < 32 := by decide
theorem witness_TablesAreRootFractions : 0 < 64 ∧ 63 < 64 := by decide
theorem witness_ScheduleFollowsRecurrence :
    (zeros 64).length = 64 ∧ (0 < 16 ∧ 15 < 16) ∧ (16 ≤ 16 ∧ 16 < 64) ∧ (16 ≤ 63 ∧ 63 < 64) := by decide
theorem witness_CompressRunsSixtyFourRounds : (zeros 64).length = 64 ∧ 0 < 64 ∧ 63 < 64 := by decide
/-- Reset; INIT; the ABSORB that fills BUF; FINAL with 0, 55, 56 and 63 bytes pending. -/
theorem witness_AccumulatorIsWrittenByCompressor_written :
    (∀ c ∈ [(Phase.absorbing, 0, Event.reset []), (.finalized, 0, cmd (encode .init)),
        (.absorbing, 63, cmd (encode (.absorb 0x61#8))), (.fresh, 0, cmd (encode .final)), (.absorbing, 55, cmd (encode .final)),
        (.absorbing, 56, cmd (encode .final)), (.absorbing, 63, cmd (encode .final))],
      Memory.wf (engine c.1 (zeros c.2.1) [c.2.2]).buf = true ∧ (engine c.1 (zeros c.2.1) [c.2.2]).inputs = c.2.2 :: [] ∧
      (engine c.1 (zeros c.2.1) [c.2.2]).buf.length = c.2.1 ∧ (next? (step (engine c.1 (zeros c.2.1) [c.2.2]))).isSome = true) ∧
    (engine .absorbing [] []).phase ≠ .finalized ∧ ∀ w : Word, cmd w = .access (commandWrite (engine .fresh [] []).base w) :=
  ⟨by decide +kernel, by decide, fun _ => rfl⟩
/-- An ABSORB that does not fill BUF, ABSORB and FINAL in FINALIZED, a read, and an idle step. -/
theorem witness_AccumulatorIsWrittenByCompressor_kept :
    (∀ c ∈ [(Phase.absorbing, 62, cmd (encode (.absorb 0x61#8))), (.finalized, 0, cmd (encode (.absorb 0x61#8))),
        (.finalized, 0, cmd (encode .final)), (.absorbing, 63, .access (.read 0x44 4))],
      Memory.wf (engine c.1 (zeros c.2.1) [c.2.2]).buf = true ∧ (engine c.1 (zeros c.2.1) [c.2.2]).inputs = c.2.2 :: [] ∧
      (next? (step (engine c.1 (zeros c.2.1) [c.2.2]))).isSome = true ∧
      c.2.2 ≠ cmd (encode .init) ∧ (c.1 = .finalized ∨ (zeros c.2.1).length ≠ 63 ∨ c.2.2 = .access (.read 0x44 4)) ∧
      (c.2.2 = cmd (encode .final) → c.1 = .finalized)) ∧
    State.reset.inputs = [] ∧ (next? (step State.reset)).isSome = true := by decide +kernel
theorem witness_AbsorbAppendsOrCompresses :
    ((engine .fresh [] []).phase ≠ .finalized ∧ (engine .fresh [] []).buf.length ≠ 63) ∧
    ((engine .absorbing (zeros 62) []).phase ≠ .finalized ∧ (engine .absorbing (zeros 62) []).buf.length ≠ 63) ∧
    ((engine .absorbing (zeros 63) []).phase ≠ .finalized ∧ (engine .absorbing (zeros 63) []).buf.length = 63) ∧
    (engine .finalized [] []).phase = .finalized := by decide
theorem witness_FinalPadsAndCompresses :
    ((engine .fresh [] []).phase ≠ .finalized ∧ Memory.wf (engine .fresh [] []).buf = true) ∧
    ∀ n ∈ [55, 56, 63], (engine .absorbing (zeros n) []).phase ≠ .finalized ∧
      Memory.wf (engine .absorbing (zeros n) []).buf = true := by decide
theorem witness_TailFillsWholeBlocks :
    (∀ n ∈ [0, 55, 56, 63], Memory.wf (zeros n) = true) ∧
    (0 < 1 ∧ 1 + 8 < (finalTail [] 0#64).length) ∧ (0 < 55 ∧ 55 + 8 < (finalTail [] 0#64).length) ∧
    ((zeros 56).length < 57 ∧ 57 + 8 < (finalTail (zeros 56) 0#64).length) ∧
    ((zeros 63).length < 119 ∧ 119 + 8 < (finalTail (zeros 63) 0#64).length) := by decide +kernel
theorem witness_FinalIsSingleUse :
    (finished []).phase = .finalized ∧ (engine .fresh [] []).phase = .fresh ∧ (engine .absorbing [] []).phase = .absorbing := by decide
theorem witness_EngineHoldsTheMessage_open : ∃ t : State,
    (engine .absorbing [0x61#8] [cmd 0x20000062#32]).Holds [0x61#8] ∧ step (engine .absorbing [0x61#8] [cmd 0x20000062#32]) = .next t :=
  ⟨_, by constructor <;> decide, rfl⟩
theorem witness_EngineHoldsTheMessage_finalized : ∃ t : State,
    (finished [cmd 0x10000000#32]).Holds [0x61#8, 0x62#8, 0x63#8] ∧ step (finished [cmd 0x10000000#32]) = .next t :=
  ⟨_, by constructor <;> decide +kernel, rfl⟩
theorem witness_AbsorbingASequence :
    ((engine .fresh [] []).phase ≠ .finalized ∧ Memory.wf (engine .fresh [] []).buf = true) ∧
    (engine .absorbing (zeros 63) []).phase ≠ .finalized ∧ Memory.wf (engine .absorbing (zeros 63) []).buf = true := by decide
theorem witness_SameMessageSameDigest : ∃ s' t' : State,
    execAll (hashCommands [0x61#8]) (finished []) = .next s' ∧ execAll (hashCommands [0x61#8]) State.reset = .next t' :=
  ⟨_, _, rfl, rfl⟩
theorem witness_CommandFrames : ∃ t u v w x : State,
    exec .init (finished []) = .next t ∧
    (exec (.absorb 0x61#8) (engine .absorbing (zeros 62) []) = .next u ∧ (engine .absorbing (zeros 62) []).phase ≠ .finalized ∧
      (engine .absorbing (zeros 62) []).buf.length ≠ 63 ∧ 61 < (engine .absorbing (zeros 62) []).buf.length) ∧
    (exec (.absorb 0x61#8) (finished []) = .next v ∧ (finished []).phase = .finalized) ∧
    (exec .final (engine .fresh [] []) = .next w ∧ (engine .fresh [] []).phase ≠ .finalized) ∧
    exec .final (finished []) = .next x :=
  ⟨_, _, _, _, _, rfl, ⟨rfl, by decide, by decide, by decide⟩, ⟨rfl, by decide⟩, ⟨rfl, by decide⟩, rfl⟩
theorem witness_PhaseTransitions_reset : ∃ t : State,
    (finished [.reset []]).inputs = .reset [] :: [] ∧ step (finished [.reset []]) = .next t ∧ t.phase ≠ (finished [.reset []]).phase :=
  ⟨_, rfl, rfl, by decide⟩
theorem witness_PhaseTransitions_command : ∃ t : State,
    (engine .fresh [] [cmd 0x20000061#32]).inputs = cmd 0x20000061#32 :: [] ∧
    step (engine .fresh [] [cmd 0x20000061#32]) = .next t ∧ t.phase ≠ (engine .fresh [] [cmd 0x20000061#32]).phase :=
  ⟨_, rfl, rfl, by decide⟩
theorem witness_StepRunsDecodedCommand :
    (engine .fresh [] [cmd 0x30000000#32]).inputs =
      .access (commandWrite (engine .fresh [] [cmd 0x30000000#32]).base 0x30000000#32) :: [] ∧
    decode 0x30000000#32 = .command .final := by decide
theorem witness_OnlyCommandWritesChangeTheEngine : ∃ t : State,
    (engine .fresh [] [cmd 0x20000061#32]).inputs =
      .access (commandWrite (engine .fresh [] [cmd 0x20000061#32]).base 0x20000061#32) :: [] ∧
    step (engine .fresh [] [cmd 0x20000061#32]) = .next t ∧ ¬(engine .fresh [] [cmd 0x20000061#32]).SameEngine t :=
  ⟨_, rfl, rfl, fun h => absurd h.2.1 (by decide)⟩
theorem witness_EveryAccessCompletes : State.reset.inputs = [] := rfl
theorem witness_AdmissionOfAccesses :
    (∀ c ∈ [(0x40, 1), (0x42, 4), (0x7E, 4), (0x7F, 1), (0x7F, 0)],
      0x40 ≤ c.1 ∧ c.1 ≤ 0x40 + 0x3F ∧ (c.2 ≠ 4 ∨ (c.1 - 0x40) % 4 ≠ 0 ∨ 0x40 + 0x3F < c.1 + c.2 - 1)) ∧
    (∀ c ∈ [0x40, 0x7C], 0x40 ≤ c ∧ c ≤ 0x40 + 0x3F ∧ (c - 0x40) % 4 = 0) ∧
    (reading .fresh [] 0x7E 4).inputs = .access (.read 0x7E 4) :: [] ∧ (reading .fresh [] 0x7E 4).base = 0x40 := by decide
theorem witness_AccessesElsewhereHaveNoEffect :
    ((reading .fresh [] 0x3F 4).inputs = .access (.read 0x3F 4) :: [] ∧ (Access.read 0x3F 4).addr < (reading .fresh [] 0x3F 4).base) ∧
    (reading .fresh [] 0x80 4).inputs = .access (.read 0x80 4) :: [] ∧
      (reading .fresh [] 0x80 4).base + 0x3F < (Access.read 0x80 4).addr := by decide
theorem witness_ReadsReturnRegisterValues :
    ∀ off ∈ [0x00, 0x04, 0x08, 0x1C, 0x20, 0x3C], off < 64 ∧ off % 4 = 0 ∧
      (finished [.access (.read (0x40 + off) 4)]).inputs =
        .access (.read ((finished [.access (.read (0x40 + off) 4)]).base + off) 4) :: [] ∧
      (reading .absorbing [] (0x40 + off) 4).inputs = .access (.read ((reading .absorbing [] (0x40 + off) 4).base + off) 4) :: [] := by decide
theorem witness_ReadOnlyRegistersIgnoreWrites :
    ∀ off ∈ [0x04, 0x20, 0x3C], (off = 0x04 ∨ (0x20 ≤ off ∧ off < 64 ∧ off % 4 = 0)) ∧
      (writing .fresh [] (0x40 + off) 4 0#32).inputs =
        .access (.write ((writing .fresh [] (0x40 + off) 4 0#32).base + off) 4 0#32) :: [] := by decide
theorem witness_ReservedOffsetsAreInert :
    ∀ off ∈ [0x08, 0x1C], 0x08 ≤ off ∧ off ≤ 0x1C ∧ off % 4 = 0 ∧
      (reading .fresh [] (0x40 + off) 4).inputs = .access (.read ((reading .fresh [] (0x40 + off) 4).base + off) 4) :: [] ∧
      (writing .fresh [] (0x40 + off) 4 1#32).inputs =
        .access (.write ((writing .fresh [] (0x40 + off) 4 1#32).base + off) 4 1#32) :: [] := by decide
theorem witness_StatusFields : Memory.wf (engine .absorbing (zeros 63) []).buf = true ∧ Memory.wf (engine .fresh [] []).buf = true := by decide
theorem witness_DigestByteOrder : (0 < 4 ∧ 3 < 4) ∧ (finished []).phase = .finalized := by decide
theorem witness_HashStateIsHiddenBeforeFinal :
    (engine .absorbing [0x61#8] [cmd 0x20000062#32]).SameToHost
      { engine .absorbing [0x62#8] [cmd 0x20000062#32] with h := abcDigest, bitlen := 512#64 } ∧
    (engine .absorbing [0x61#8] [cmd 0x20000062#32]).phase ≠ .finalized ∧
    Event.access (commandWrite (engine .absorbing [0x61#8] [cmd 0x20000062#32]).base 0x30000000#32) ∉
      (engine .absorbing [0x61#8] [cmd 0x20000062#32]).inputs :=
  ⟨⟨rfl, rfl, ⟨rfl, rfl, rfl⟩, rfl, rfl, rfl⟩, by decide, by decide⟩
theorem witness_HostReadsTheDigest :
    (engine .absorbing [0x78#8] ((hostAccesses 0x40 [.hash [0x61#8], .readStatus, .readWholeDigest]).map Event.access)).inputs =
      (hostAccesses (engine .absorbing [0x78#8]
        ((hostAccesses 0x40 [.hash [0x61#8], .readStatus, .readWholeDigest]).map Event.access)).base
        [.hash [0x61#8], .readStatus, .readWholeDigest]).map Event.access := rfl
theorem witness_FaultsArePrecise : ∃ t : State,
    (decode 0x00000000#32).instr? = none ∧
    ((finished []).phase = .finalized ∧ (decode 0x20000061#32).instr? ≠ some .init) ∧
    ((finished []).phase = .finalized ∧ (decode 0x30000000#32).instr? ≠ some .init) ∧
    exec .final (engine .fresh [] []) = .next t := ⟨_, by decide, by decide, by decide, rfl⟩
theorem witness_FaultPriority :
    ((writing .finalized [] 0x42 4 0x30000000#32).inputs = .access (.write 0x42 4 0x30000000#32) :: [] ∧
      (Access.write 0x42 4 0x30000000#32).inWindow (writing .finalized [] 0x42 4 0x30000000#32).base = true ∧
      ((Access.write 0x42 4 0x30000000#32).nbytes ≠ 4 ∨
        ((Access.write 0x42 4 0x30000000#32).addr - (writing .finalized [] 0x42 4 0x30000000#32).base) % 4 ≠ 0)) ∧
    (decode 0x30000061#32).instr? = none ∧
    ((decode 0x20000061#32).instr? = some (.absorb 0x61#8) ∧ (finished []).phase = .finalized ∧ Instr.absorb 0x61#8 ≠ .init) ∧
    (decode 0x30000000#32).instr? = some .final ∧ Instr.final ≠ .init := by decide
theorem witness_FaultRecordIsSticky_kept : ∃ t : State,
    step { finished [cmd 0x30000000#32] with errMisuse := true, errIllegal := true, cause := 1#4 } = .next t ∧
    (∀ rest : List Event, [cmd 0x30000000#32] ≠ .access (commandWrite 0x40 0x10000000#32) :: rest) ∧
    (∀ (l : List Access) (rest : List Event), [cmd 0x30000000#32] ≠ .reset l :: rest) ∧ (1#4 : BitVec 4) ≠ 0#4 :=
  ⟨_, rfl, fun rest h => by simp [cmd, commandWrite] at h, fun l rest h => by simp [cmd] at h, by decide⟩
theorem witness_FaultRecordIsSticky_cleared :
    ((finished [cmd 0x10000000#32]).inputs = cmd 0x10000000#32 :: [] ∧
      cmd 0x10000000#32 = .access (commandWrite (finished [cmd 0x10000000#32]).base 0x10000000#32)) ∧
    (finished [.reset []]).inputs = .reset [] :: [] := by decide
/-- Every way a step changes the fault record: an illegal word, ABSORB and FINAL in FINALIZED, INIT, reset. -/
theorem witness_OnlyFaultsAreRecorded : ∃ t u v w x : State,
    (step (engine .fresh [] [cmd 0x00000000#32]) = .next t ∧ ¬(engine .fresh [] [cmd 0x00000000#32]).SameFaults t) ∧
    (step (finished [cmd 0x20000061#32]) = .next u ∧ ¬(finished [cmd 0x20000061#32]).SameFaults u) ∧
    (step (finished [cmd 0x30000000#32]) = .next v ∧ ¬(finished [cmd 0x30000000#32]).SameFaults v) ∧
    (step { finished [cmd 0x10000000#32] with errMisuse := true } = .next w ∧
      ¬State.SameFaults { finished [cmd 0x10000000#32] with errMisuse := true } w) ∧
    (step { finished [.reset []] with errIllegal := true } = .next x ∧
      ¬State.SameFaults { finished [.reset []] with errIllegal := true } x) :=
  ⟨_, _, _, _, _, ⟨rfl, fun h => absurd h.2.1 (by decide)⟩, ⟨rfl, fun h => absurd h.1 (by decide)⟩,
    ⟨rfl, fun h => absurd h.1 (by decide)⟩, ⟨rfl, fun h => absurd h.1 (by decide)⟩, ⟨rfl, fun h => absurd h.2.1 (by decide)⟩⟩
theorem witness_InstancesAreIndependent : ∃ t : State,
    (Platform.windowsDistinct [State.reset, engine .fresh [] []] ∧
      ([State.reset, engine .fresh [] []] : Platform)[1]? = some (engine .fresh [] []) ∧
      (Access.read 0x44 4).inWindow (engine .fresh [] []).base = true ∧ 0 ≠ 1) ∧
    step (engine .fresh [] []) = .next t :=
  ⟨_, ⟨by unfold Platform.windowsDistinct; decide, rfl, by decide, by decide⟩, rfl⟩
theorem witness_ResetSetsEveryElement : (finished [.reset [.read 0x60 4]]).inputs = .reset [.read 0x60 4] :: [] := rfl
theorem witness_ResetAbandonsAccesses :
    (engine .absorbing [0x61#8] [cmd 0x30000000#32, .reset [.read 0x60 4]]).inputs =
      .access (commandWrite 0x40 0x30000000#32) :: .reset [.read 0x60 4] :: [] ∧
    (finished [.reset [], cmd 0x10000000#32]).inputs = .reset [] :: [cmd 0x10000000#32] := by decide
theorem witness_EveryStepKeepsTheInvariant : ∃ t : State,
    (engine .absorbing [0x61#8] [cmd 0x30000000#32]).Inv ∧ step (engine .absorbing [0x61#8] [cmd 0x30000000#32]) = .next t :=
  ⟨_, by constructor <;> decide, rfl⟩

end Sys2Proof.Tests
end

section
/-! The byte-order helpers of 00_scope.md R9: the value of `be32`, that `bytesBe32` undoes it, and `bytesBe64` as the two
halves of its word. -/

namespace Sys2Proof.Machine

/-- Appending one byte below a bit vector shifts its value up by eight bits. -/
theorem toNat_append_byte {n : Nat} (x : BitVec n) (b : Byte) : (x ++ b).toNat = x.toNat * 2 ^ 8 + b.toNat := by
  rw [BitVec.toNat_append, ← Nat.shiftLeft_add_eq_or_of_lt b.isLt, Nat.shiftLeft_eq]

theorem be32_toNat (b0 b1 b2 b3 : Byte) :
    (be32 b0 b1 b2 b3).toNat = b0.toNat * 2 ^ 24 + b1.toNat * 2 ^ 16 + b2.toNat * 2 ^ 8 + b3.toNat := by
  simp only [be32, toNat_append_byte]
  omega

/-- Each byte field of `be32` is reached by dropping the bytes below it. -/
@[simp] theorem bytesBe32_be32 (b0 b1 b2 b3 : Byte) : bytesBe32 (be32 b0 b1 b2 b3) = [b0, b1, b2, b3] := by
  have h3 : (be32 b0 b1 b2 b3).extractLsb' 0 8 = b3 := BitVec.extractLsb'_append_eq_right
  have h2 : (be32 b0 b1 b2 b3).extractLsb' 8 8 = b2 :=
    (BitVec.extractLsb'_append_eq_of_le (by decide)).trans BitVec.extractLsb'_append_eq_right
  have h1 : (be32 b0 b1 b2 b3).extractLsb' 16 8 = b1 :=
    (BitVec.extractLsb'_append_eq_of_le (by decide)).trans <|
      (BitVec.extractLsb'_append_eq_of_le (by decide)).trans BitVec.extractLsb'_append_eq_right
  have h0 : (be32 b0 b1 b2 b3).extractLsb' 24 8 = b0 :=
    (BitVec.extractLsb'_append_eq_of_le (by decide)).trans <|
      (BitVec.extractLsb'_append_eq_of_le (by decide)).trans BitVec.extractLsb'_append_eq_left
  simp only [bytesBe32, h0, h1, h2, h3]

/-- A bit field inside a bit field, taken from the whole. -/
theorem extractLsb'_extractLsb' {w : Nat} (x : BitVec w) (i n j m : Nat) (h : j + m ≤ n) :
    (x.extractLsb' i n).extractLsb' j m = x.extractLsb' (i + j) m := by
  ext k hk
  have hin : j + k < n := by omega
  simp [hin, Nat.add_assoc]

theorem bytesBe64_eq_append (v : Count) :
    bytesBe64 v = bytesBe32 (v.extractLsb' 32 32) ++ bytesBe32 (v.extractLsb' 0 32) := by
  simp [bytesBe64, bytesBe32, extractLsb'_extractLsb']

/-- Settles O14: the value of `be32` and its inverse by lemma; the bit fields are the definitions of R9. -/
theorem byteOrderIsBigEndian : Obligations.ByteOrderIsBigEndian :=
  ⟨fun b0 b1 b2 b3 => ⟨be32_toNat b0 b1 b2 b3, bytesBe32_be32 b0 b1 b2 b3⟩, fun _ => rfl,
    fun v => ⟨bytesBe64_eq_append v, rfl⟩⟩

end Sys2Proof.Machine
end

section
/-! The decoder and the encoder are inverse (30_encoding.md R45 to R48): fields and words are in bijection, and the checks of
R49 leave exactly the fields of the three commands. -/

namespace Sys2Proof

theorem Fields.ofWord_toWord (f : Fields) : Fields.ofWord f.toWord = f := by
  have hop : f.toWord.extractLsb' 28 4 = f.op :=
    (BitVec.extractLsb'_append_eq_of_le (by decide)).trans BitVec.extractLsb'_append_eq_left
  have hrsv : f.toWord.extractLsb' 8 20 = f.rsv :=
    (BitVec.extractLsb'_append_eq_of_le (by decide)).trans BitVec.extractLsb'_append_eq_right
  have hdata : f.toWord.extractLsb' 0 8 = f.data := BitVec.extractLsb'_append_eq_right
  simp only [Fields.ofWord, hop, hrsv, hdata]

theorem Fields.toWord_ofWord (w : Word) : (Fields.ofWord w).toWord = w := by
  simp only [Fields.ofWord, Fields.toWord]
  rw [BitVec.extractLsb'_append_extractLsb'_eq_extractLsb' (show 28 = 8 + 20 from rfl),
    BitVec.extractLsb'_append_extractLsb'_eq_extractLsb' (show 8 = 0 + 8 from rfl)]
  exact BitVec.extractLsb'_eq_self

theorem Fields.decode_fields (i : Instr) : i.fields.decode = .command i := by
  cases i <;> rfl

/-- Fields that pass the checks of R49 are those of the command they select. -/
theorem Fields.eq_fields_of_decode {f : Fields} {i : Instr} (h : f.decode = .command i) : f = i.fields := by
  obtain ⟨op, rsv, data⟩ := f
  simp only [Fields.decode, Fields.opAssigned, Fields.rsvZero, Fields.dataAllowed, Fields.select] at h
  split at h
  · cases h
  next hop =>
    split at h
    · cases h
    next hrsv =>
      split at h
      · cases h
      next hdata =>
        split at h
        next hi => cases h; simp_all [Instr.fields, Config.opInit, Config.opAbsorb]
        next hi =>
          split at h
          next ha => cases h; simp_all [Instr.fields]
          next ha => cases h; simp_all [Instr.fields]

theorem decode_eq_command_iff (w : Word) (i : Instr) : decode w = .command i ↔ w = encode i := by
  constructor
  · intro h
    rw [encode, ← Fields.eq_fields_of_decode h, Fields.toWord_ofWord]
  · rintro rfl
    rw [decode, encode, Fields.ofWord_toWord, Fields.decode_fields]

@[simp] theorem decode_encode (i : Instr) : decode (encode i) = .command i := (decode_eq_command_iff _ i).2 rfl

end Sys2Proof
end

section
/-! What a step makes of its state, by the event it serves: `step_cases` with the command word decoded. The state in which a
command runs differs from the one before the step in the model's own fields alone, so the effect on the elements of
10_state.md R13 is stated on the latter. -/

namespace Sys2Proof.Machine

theorem inWindow_commandWrite (base : Nat) (w : Word) : (commandWrite base w).inWindow base = true := by
  simp [inWindow_iff, commandWrite, Access.addr]

/-- A fault is raised alike in the state from which its write is taken. -/
theorem raise_served (f : EngineFault) (s : State) (rest : List Event) :
    ((s.setInputs rest).respond .done).raise f =
      { s.raise f with baseSlot := s.baseSlot, inputs := rest, responses := s.responses ++ [.done] } := by
  rw [State.raise_eq, State.raise_eq]; rfl

/-- The elements do not depend on the model's own fields. -/
theorem State.sameEngine_outside (s : State) (b : Nat) (inp : List Event) (r : List Response) :
    s.SameEngine { s with baseSlot := b, inputs := inp, responses := r } := ⟨rfl, rfl, rfl, rfl, rfl, rfl, rfl⟩

theorem State.SameEngine.h_eq {s t : State} (h : s.SameEngine t) : s.h = t.h := h.1

theorem State.SameEngine.sameHash {s t : State} (h : s.SameEngine t) : s.SameHash t := by
  obtain ⟨hh, hb, hl, hp, -⟩ := h
  exact ⟨hh, hb, hl, hp⟩

theorem State.SameHash.h_eq {s t : State} (h : s.SameHash t) : s.h = t.h := h.1

theorem State.SameHash.phase_eq {s t : State} (h : s.SameHash t) : s.phase = t.phase := by
  obtain ⟨-, -, -, hp⟩ := h
  exact hp

/-- What serving an event makes of the engine's elements: a Fresh state, a command's effect, the record of an illegal word, or
nothing (any access that is no write to CMD). -/
inductive State.Effect (s : State) : Event → State → Prop
  | reset (l : List Access) : s.Effect (.reset l) s.makeFresh
  | command (i : Instr) : s.Effect (.access (commandWrite s.base (encode i))) (after i s)
  | illegal (w : Word) (why : IllegalWord) (hd : decode w = .illegal why) :
      s.Effect (.access (commandWrite s.base w)) (s.raise .illegalCommand)
  | quiet (a : Access) (ha : ∀ w, a ≠ commandWrite s.base w) : s.Effect (.access a) s

/-- Every step but an idle one takes the oldest event, gives at most one answer and has that event's effect. -/
theorem step_effect {s t : State} (h : step s = .next t) :
    (s.inputs = [] ∧ t = s) ∨
      ∃ e rest u new, s.inputs = e :: rest ∧ s.Effect e u ∧ new.length ≤ 1 ∧
        t = { u with baseSlot := s.baseSlot, inputs := rest, responses := s.responses ++ new } := by
  obtain ⟨hi, ht⟩ | ⟨e, rest, hi, ht⟩ := step_cases s
  · exact .inl ⟨hi, Host.Outcome.next.inj (h.symm.trans ht)⟩
  · refine .inr ⟨e, rest, ?_⟩
    obtain ⟨l, rfl, ht⟩ | ⟨a, rfl, ha, ht⟩ | ⟨a, r, rfl, -, ha, ht⟩ | ⟨w, rfl, ht⟩ := ht
    · cases h.symm.trans ht
      exact ⟨_, [], hi, .reset l, by simp, by rw [List.append_nil]; rfl⟩
    · cases h.symm.trans ht
      have hquiet : ∀ w, a ≠ commandWrite s.base w := by
        rintro w rfl
        simp [inWindow_commandWrite] at ha
      exact ⟨_, [], hi, .quiet a hquiet, by simp, by rw [List.append_nil]; rfl⟩
    · cases h.symm.trans ht
      exact ⟨_, [r], hi, .quiet a ha, by simp, rfl⟩
    · obtain ⟨i, hd, he⟩ | ⟨why, hd, he⟩ := executeWord_cases w ((s.setInputs rest).respond .done)
      · cases h.symm.trans (ht.trans he)
        obtain rfl := (decode_eq_command_iff w i).1 hd
        exact ⟨_, [.done], hi, .command i, by simp, after_served i s rest⟩
      · cases h.symm.trans (ht.trans he)
        exact ⟨_, [.done], hi, .illegal w why hd, by simp, raise_served .illegalCommand s rest⟩

/-- The elements after a command's word is served. -/
theorem sameEngine_of_step_command {s t : State} {i : Instr} {rest : List Event}
    (hi : s.inputs = .access (commandWrite s.base (encode i)) :: rest) (h : step s = .next t) :
    (after i s).SameEngine t := by
  rw [step_command s _ rest hi, executeWord, decode_encode] at h
  cases (exec_eq_after i _).symm.trans h
  rw [after_served]
  exact (after i s).sameEngine_outside _ _ _

/-- The elements after a reset is served. -/
theorem sameEngine_of_step_reset {s t : State} {l : List Access} {rest : List Event}
    (hi : s.inputs = .reset l :: rest) (h : step s = .next t) : s.makeFresh.SameEngine t := by
  cases (step_reset s l rest hi).symm.trans h
  exact s.makeFresh.sameEngine_outside _ _ _

/-- A step keeps the window's place and takes the oldest event. -/
theorem step_baseSlot_inputs {s t : State} (h : step s = .next t) :
    t.baseSlot = s.baseSlot ∧ t.inputs = s.inputs.tail := by
  obtain ⟨hi, rfl⟩ | ⟨e, rest, u, new, hi, -, -, rfl⟩ := step_effect h
  · simp [hi]
  · simp [hi]

end Sys2Proof.Machine
end

section
/-! What a command does by the phase it finds: in FINALIZED all but INIT raise a fault, and before it none touches the fault
record (10_state.md R13, R17; 60_exceptions.md R101). -/

namespace Sys2Proof.Machine

/-- No command touches the model's own fields. -/
theorem after_sameOutside (i : Instr) (s : State) : s.SameOutside (after i s) := by
  have h := after_congr i s s.baseSlot s.inputs s.responses
  exact ⟨(congrArg State.baseSlot h).symm, (congrArg State.inputs h).symm, (congrArg State.responses h).symm⟩

theorem eq_after_of_exec {i : Instr} {s t : State} (h : exec i s = .next t) : t = after i s :=
  Host.Outcome.next.inj (h.symm.trans (exec_eq_after i s))

theorem after_absorb_of_open {s : State} (d : Byte) (hp : s.phase ≠ .finalized) :
    after (.absorb d) s = (s.appendByte d).setPhase .absorbing := if_neg hp

theorem after_final_of_open {s : State} (hp : s.phase ≠ .finalized) : after .final s = s.finish := if_neg hp

/-- In FINALIZED every command but INIT raises a fault. -/
theorem after_of_finalized {s : State} {i : Instr} (hp : s.phase = .finalized) (hi : i ≠ .init) :
    ∃ f, after i s = s.raise f := by
  cases i with
  | init => exact absurd rfl hi
  | absorb d => exact ⟨.absorbAfterFinal, if_pos hp⟩
  | final => exact ⟨.finalAfterFinal, if_pos hp⟩

theorem after_sameHash {s : State} {i : Instr} (hp : s.phase = .finalized) (hi : i ≠ .init) :
    s.SameHash (after i s) := by
  obtain ⟨f, hf⟩ := after_of_finalized hp hi
  rw [hf]
  exact (s.raise_frame f).2

theorem after_sameFaults {s : State} {i : Instr} (hp : s.phase ≠ .finalized) (hi : i ≠ .init) :
    s.SameFaults (after i s) := by
  cases i with
  | init => exact absurd rfl hi
  | absorb d =>
    obtain ⟨-, hfaults, -⟩ := s.appendByte_frame d
    rw [after_absorb_of_open d hp]
    exact hfaults
  | final =>
    obtain ⟨-, hfaults, -⟩ := s.finish_frame
    rw [after_final_of_open hp]
    exact hfaults

/-- PHASE after a command, from every phase. -/
theorem after_phase (i : Instr) (s : State) : (after i s).phase =
    match i with
    | .init => .fresh
    | .absorb _ => if s.phase = .finalized then .finalized else .absorbing
    | .final => .finalized := by
  cases i with
  | init => rfl
  | absorb d =>
    by_cases hp : s.phase = .finalized
    · rw [← (after_sameHash (i := .absorb d) hp (by simp)).phase_eq]; simp [hp]
    · simp [after_absorb_of_open d hp, hp]
  | final =>
    by_cases hp : s.phase = .finalized
    · rw [← (after_sameHash (i := .final) hp (by simp)).phase_eq, hp]
    · obtain ⟨-, -, hfinal, -⟩ := s.finish_frame
      rw [after_final_of_open hp, hfinal]

/-- An ABSORB that does not bring the 64th byte leaves H, BITLEN and the bytes already pending. -/
theorem after_absorb_notFull {s : State} (d : Byte) (hl : s.buf.length ≠ 63) :
    (after (.absorb d) s).h = s.h ∧ (after (.absorb d) s).bitlen = s.bitlen ∧
      ∀ j : Nat, j < s.buf.length → (after (.absorb d) s).buf[j]? = s.buf[j]? := by
  by_cases hp : s.phase = .finalized
  · obtain ⟨hh, hb, hc, -⟩ := after_sameHash (i := .absorb d) hp (by simp)
    exact ⟨hh.symm, hc.symm, fun j _ => by rw [hb]⟩
  · rw [after_absorb_of_open d hp, State.appendByte_notFull s d hl]
    exact ⟨rfl, rfl, fun j hj => List.getElem?_append_left hj⟩

end Sys2Proof.Machine
end

section
/-! The engine holds its message (10_state.md R19): what each command makes of a state that holds `m`, FINAL's blocks being
those of the padded message that are not compressed yet. -/

namespace Sys2Proof.Machine

/-- Holding a message is a matter of H, BUF, BITLEN and PHASE. -/
theorem State.Holds.congr {s t : State} {m : List Byte} (hs : s.Holds m) (h : s.SameHash t) : t.Holds m := by
  obtain ⟨hh, hb, hl, hp⟩ := h
  constructor
  · rw [← hp, ← hh]; exact hs.accumulator
  · rw [← hp, ← hb]; exact hs.buffer
  · rw [← hp, ← hl]; exact hs.counter
  · rw [← hp]; exact hs.freshness
  · rw [← hp, ← hh]; exact hs.digest
  · rw [← hp, ← hb]; exact hs.drained
  · rw [← hp, ← hl]; exact hs.total

/-- A state before FINAL holds `m` when its four elements are those of `m`. -/
theorem State.holds_of_open {s : State} {m : List Byte} (hp : s.phase ≠ .finalized)
    (hh : s.h = hashBlocks (m.length / 64) initialHash m) (hb : s.buf = m.drop (64 * (m.length / 64)))
    (hl : s.bitlen = BitVec.ofNat 64 (512 * (m.length / 64))) (hf : s.phase = .fresh ↔ m = []) : s.Holds m where
  accumulator _ := hh
  buffer _ := hb
  counter _ := hl
  freshness _ := hf
  digest h := absurd h hp
  drained h := absurd h hp
  total h := absurd h hp

theorem State.Holds.buf_length {s : State} {m : List Byte} (hs : s.Holds m) (hp : s.phase ≠ .finalized) :
    s.buf.length = m.length % 64 := by
  rw [hs.buffer hp, List.length_drop]
  omega

theorem State.Holds.wf {s : State} {m : List Byte} (hs : s.Holds m) (hp : s.phase ≠ .finalized) :
    Memory.wf s.buf = true := by
  rw [Memory.wf, hs.buf_length hp, decide_eq_true_eq]
  omega

theorem makeFresh_holds (s : State) : s.makeFresh.Holds [] :=
  State.holds_of_open (by simp [State.makeFresh_eq]) rfl rfl rfl (by simp [State.makeFresh_eq])

/-- An accepted byte joins the message, whether it fills the block or not. -/
theorem absorb_holds {s : State} {m : List Byte} (d : Byte) (hs : s.Holds m) (hp : s.phase ≠ .finalized) :
    ((s.appendByte d).setPhase .absorbing).Holds (m ++ [d]) := by
  have hlen := hs.buf_length hp
  have hle : 64 * (m.length / 64) ≤ m.length := by omega
  have hbuf : s.buf ++ [d] = (m ++ [d]).drop (64 * (m.length / 64)) := by
    rw [hs.buffer hp, List.drop_append_of_le_length hle]
  have hacc : s.h = hashBlocks (m.length / 64) initialHash (m ++ [d]) := by
    rw [hs.accumulator hp, hashBlocks_append _ _ _ _ hle]
  by_cases hl : s.buf.length = 63
  · have hq : (m ++ [d]).length / 64 = m.length / 64 + 1 := by rw [List.length_append, List.length_singleton]; omega
    rw [State.appendByte_full s d hl]
    refine State.holds_of_open (by simp) ?_ ?_ ?_ (by simp)
    · have htake : (s.buf ++ [d]).take 64 = s.buf ++ [d] := List.take_of_length_le (by simp [hl])
      rw [hq, hashBlocks_succ, ← hbuf, ← hacc, htake]
      rfl
    · rw [hq, List.drop_of_length_le (by rw [List.length_append, List.length_singleton]; omega)]
      rfl
    · rw [hq, Nat.mul_add, BitVec.ofNat_add, ← hs.counter hp]
      rfl
  · have hq : (m ++ [d]).length / 64 = m.length / 64 := by rw [List.length_append, List.length_singleton]; omega
    rw [State.appendByte_notFull s d hl]
    refine State.holds_of_open (by simp) ?_ ?_ ?_ (by simp)
    · rw [hq]; exact hacc
    · rw [hq]; exact hbuf
    · rw [hq]; exact hs.counter hp

/-- The padding of a whole message is FINAL's tail on the message's last bytes. -/
theorem padMessage_eq (m : List Byte) : padMessage m = m.take (64 * (m.length / 64)) ++
    finalTail (m.drop (64 * (m.length / 64))) (BitVec.ofNat 64 (8 * m.length)) := by
  have hlen : (m.drop (64 * (m.length / 64))).length = m.length % 64 := by rw [List.length_drop]; omega
  have hz : padZeros (m.length % 64) = (119 - m.length % 64) % 64 := by rw [padZeros]; split <;> omega
  rw [padMessage, finalTail, paddedTail, hlen, hz, ← List.append_assoc, ← List.append_assoc, ← List.append_assoc,
    List.take_append_drop]

/-- SHA-256 of `m` from the blocks of `m` and then those of FINAL's tail. -/
theorem sha256_eq (m : List Byte) :
    sha256 m = hashBlocks
      ((finalTail (m.drop (64 * (m.length / 64))) (BitVec.ofNat 64 (8 * m.length))).length / 64)
      (hashBlocks (m.length / 64) initialHash m)
      (finalTail (m.drop (64 * (m.length / 64))) (BitVec.ofNat 64 (8 * m.length))) := by
  have hhead : (m.take (64 * (m.length / 64))).length = 64 * (m.length / 64) := by
    rw [List.length_take]; omega
  have hblocks : hashBlocks (m.length / 64) initialHash (m.take (64 * (m.length / 64))) =
      hashBlocks (m.length / 64) initialHash m := by
    rw [← hashBlocks_append _ _ _ (m.drop (64 * (m.length / 64))) hhead.ge, List.take_append_drop]
  rw [sha256, padMessage_eq, List.length_append, hhead, Nat.mul_add_div (by omega), hashBlocks_add,
    hashBlocks_append _ _ _ _ hhead.ge, hblocks, List.drop_left' hhead]

theorem finish_holds {s : State} {m : List Byte} (hs : s.Holds m) (hp : s.phase ≠ .finalized) : s.finish.Holds m := by
  have htotal : s.bitlen + BitVec.ofNat 64 (8 * s.buf.length) = BitVec.ofNat 64 (8 * m.length) := by
    rw [hs.counter hp, hs.buf_length hp, ← BitVec.ofNat_add]
    congr 1; omega
  rw [State.finish_eq s (hs.wf hp), htotal]
  constructor
  case digest => intro _; rw [sha256_eq, ← hs.accumulator hp, ← hs.buffer hp]
  case drained => exact fun _ => rfl
  case total => exact fun _ => rfl
  all_goals exact fun h => absurd rfl h

/-- The message a command makes of `m`. -/
def messageAfterCommand (i : Instr) (s : State) (m : List Byte) : List Byte :=
  match i with
  | .init => []
  | .absorb d => if s.phase = .finalized then m else m ++ [d]
  | .final => m

theorem after_holds {s : State} {m : List Byte} (i : Instr) (hs : s.Holds m) :
    (after i s).Holds (messageAfterCommand i s m) := by
  cases i with
  | init => exact makeFresh_holds s
  | absorb d =>
    by_cases hp : s.phase = .finalized
    · rw [messageAfterCommand, if_pos hp]
      exact hs.congr (after_sameHash hp (by simp))
    · rw [messageAfterCommand, if_neg hp, after_absorb_of_open d hp]
      exact absorb_holds d hs hp
  | final =>
    by_cases hp : s.phase = .finalized
    · exact hs.congr (after_sameHash hp (by simp))
    · rw [after_final_of_open hp]
      exact finish_holds hs hp

/-! ## The message after a step, by the event it serves -/

theorem messageAfter_command {s : State} {i : Instr} {rest : List Event}
    (h : s.inputs = .access (commandWrite s.base (encode i)) :: rest) (m : List Byte) :
    s.messageAfter m = messageAfterCommand i s m := by
  simp only [State.messageAfter, h, commandWrite, Nat.add_zero, and_self, if_true, decode_encode]
  cases i <;> rfl

theorem messageAfter_illegal {s : State} {w : Word} {why : IllegalWord} {rest : List Event}
    (h : s.inputs = .access (commandWrite s.base w) :: rest) (hd : decode w = .illegal why) (m : List Byte) :
    s.messageAfter m = m := by
  simp only [State.messageAfter, h, commandWrite, Nat.add_zero, and_self, if_true, hd]

theorem messageAfter_quiet {s : State} {a : Access} {rest : List Event} (h : s.inputs = .access a :: rest)
    (ha : ∀ w, a ≠ commandWrite s.base w) (m : List Byte) : s.messageAfter m = m := by
  cases a with
  | read addr n => simp only [State.messageAfter, h]
  | write addr n w =>
    simp only [State.messageAfter, h]
    refine if_neg ?_
    rintro ⟨rfl, rfl⟩
    exact ha w rfl

/-- Settles O23: of all that a step can serve, only a reset and a command's word bear on the message, and each makes a state
that holds the message after it. -/
theorem engineHoldsTheMessage : Obligations.EngineHoldsTheMessage := by
  refine ⟨makeFresh_holds State.reset, fun s t m hs h => ?_⟩
  obtain ⟨hi, rfl⟩ | ⟨e, rest, u, new, hi, he, -, rfl⟩ := step_effect h
  · simpa only [State.messageAfter, hi] using hs
  have hsame := (u.sameEngine_outside s.baseSlot rest (s.responses ++ new)).sameHash
  cases he with
  | reset l => simpa only [State.messageAfter, hi] using (makeFresh_holds s).congr hsame
  | command i =>
    rw [messageAfter_command hi]
    exact (after_holds i hs).congr hsame
  | illegal w why hd =>
    rw [messageAfter_illegal hi hd]
    exact (hs.congr (s.raise_frame _).2).congr hsame
  | quiet a ha =>
    rw [messageAfter_quiet hi ha]
    exact hs.congr hsame

end Sys2Proof.Machine
end

section
/-! The invariant (10_state.md R15, R17, R18, R19, R24): its conditions on H, BUF, BITLEN and PHASE, and those on the fault
record, are kept by every command. -/

namespace Sys2Proof.Machine

/-- The invariant is a matter of the engine's elements. -/
theorem State.Inv.congr {s t : State} (hs : s.Inv) (h : s.SameEngine t) : t.Inv := by
  obtain ⟨hh, hb, hl, hp, hm, hi, hc⟩ := h
  constructor
  · rw [← hb]; exact hs.bufShort
  · rw [← hp, ← hh, ← hb, ← hl]; exact hs.freshInitial
  · rw [← hp, ← hl]; exact hs.absorbingBlocks
  · rw [← hp, ← hb, ← hl]; exact hs.finalizedDrained
  · rw [← hc, ← hm, ← hi]; exact hs.causeNone
  · rw [← hc, ← hi]; exact hs.causeIllegal
  · rw [← hc, ← hm]; exact hs.causeMisuse
  · rw [← hc]; exact hs.causeRange
  · rw [← hm, ← hp]; exact hs.misuseFinalized

theorem makeFresh_inv (s : State) : s.makeFresh.Inv := by
  rw [State.makeFresh_eq]
  constructor <;> simp [Memory.wf]

/-- Raising a fault keeps the invariant, misuse being raised in FINALIZED alone. -/
theorem raise_inv {s : State} {f : EngineFault} (hs : s.Inv) (hf : f ≠ .illegalCommand → s.phase = .finalized) :
    (s.raise f).Inv := by
  have hnone := hs.causeNone
  have hillegal := hs.causeIllegal
  have hmisuse := hs.causeMisuse
  have hrange := hs.causeRange
  rw [State.raise_eq]
  constructor
  case bufShort => exact hs.bufShort
  case freshInitial => exact hs.freshInitial
  case absorbingBlocks => exact hs.absorbingBlocks
  case finalizedDrained => exact hs.finalizedDrained
  case misuseFinalized =>
    intro h
    obtain h | h := Bool.or_eq_true_iff.1 h
    · exact hs.misuseFinalized h
    · exact hf (of_decide_eq_true h)
  -- CAUSE takes the fault's code, whose flag is the one set; or an earlier fault stands in it and its flag stays set
  all_goals
    by_cases hc : s.cause = 0#4
    · cases f <;> simp_all [EngineFault.code]
    · cases f <;> simp_all

/-- A command that leaves the fault record alone outside FINALIZED keeps its conditions: no misuse is recorded there. -/
theorem inv_of_sameFaults {s t : State} (hs : s.Inv) (hp : s.phase ≠ .finalized) (h : s.SameFaults t)
    (hbuf : Memory.wf t.buf = true) (hfresh : t.phase ≠ .fresh)
    (habs : t.phase = .absorbing → t.bitlen.toNat % 512 = 0)
    (hfin : t.phase = .finalized → t.buf = [] ∧ t.bitlen.toNat % 8 = 0) : t.Inv := by
  obtain ⟨hm, hi, hc⟩ := h
  constructor
  case bufShort => exact hbuf
  case freshInitial => exact fun h => absurd h hfresh
  case absorbingBlocks => exact habs
  case finalizedDrained => exact hfin
  case causeNone => rw [← hc, ← hm, ← hi]; exact hs.causeNone
  case causeIllegal => rw [← hc, ← hi]; exact hs.causeIllegal
  case causeMisuse => rw [← hc, ← hm]; exact hs.causeMisuse
  case causeRange => rw [← hc]; exact hs.causeRange
  case misuseFinalized => rw [← hm]; exact fun h => absurd (hs.misuseFinalized h) hp

/-- Before FINAL the counter is a multiple of a block's bits. -/
theorem State.Inv.bitlen_blocks {s : State} (hs : s.Inv) (hp : s.phase ≠ .finalized) : s.bitlen.toNat % 512 = 0 := by
  cases h : s.phase with
  | fresh => simp [(hs.freshInitial h).2.2]
  | absorbing => exact hs.absorbingBlocks h
  | finalized => exact absurd h hp

theorem absorb_inv {s : State} (d : Byte) (hs : s.Inv) (hp : s.phase ≠ .finalized) :
    ((s.appendByte d).setPhase .absorbing).Inv := by
  obtain ⟨-, hfaults, -⟩ := s.appendByte_frame d
  have hblocks := hs.bitlen_blocks hp
  refine inv_of_sameFaults hs hp hfaults (Memory.wf_appendByte s d hs.bufShort) (by simp) (fun _ => ?_) (by simp)
  by_cases hl : s.buf.length = 63
  · rw [State.appendByte_full s d hl]
    simp only [State.setPhase_bitlen, BitVec.toNat_add, BitVec.toNat_ofNat]
    omega
  · rw [State.appendByte_notFull s d hl]
    exact hblocks

theorem finish_inv {s : State} (hs : s.Inv) (hp : s.phase ≠ .finalized) : s.finish.Inv := by
  obtain ⟨-, hfaults, hphase, hbuf⟩ := s.finish_frame
  have hblocks := hs.bitlen_blocks hp
  refine inv_of_sameFaults hs hp hfaults (by rw [hbuf]; rfl) (by simp [hphase]) (by simp [hphase]) (fun _ => ⟨hbuf, ?_⟩)
  rw [State.finish_eq s hs.bufShort]
  simp only [BitVec.toNat_add, BitVec.toNat_ofNat]
  omega

theorem after_inv {s : State} (i : Instr) (hs : s.Inv) : (after i s).Inv := by
  by_cases hfinalized : s.phase = .finalized ∧ i ≠ .init
  · obtain ⟨f, hf⟩ := after_of_finalized hfinalized.1 hfinalized.2
    rw [hf]
    exact raise_inv hs fun _ => hfinalized.1
  · cases i with
    | init => exact makeFresh_inv s
    | absorb d =>
      have hp : s.phase ≠ .finalized := fun h => hfinalized ⟨h, by simp⟩
      rw [after_absorb_of_open d hp]
      exact absorb_inv d hs hp
    | final =>
      have hp : s.phase ≠ .finalized := fun h => hfinalized ⟨h, by simp⟩
      rw [after_final_of_open hp]
      exact finish_inv hs hp

/-- Settles O50: reset is a Fresh state. -/
theorem invariantHoldsAtReset : Obligations.InvariantHoldsAtReset := makeFresh_inv State.reset

/-- Settles O51: a reset, a command, an illegal word and a quiet event each keep it. -/
theorem everyStepKeepsTheInvariant : Obligations.EveryStepKeepsTheInvariant := by
  intro s t hs h
  obtain ⟨-, rfl⟩ | ⟨e, rest, u, new, -, he, -, rfl⟩ := step_effect h
  · exact hs
  have hu : u.Inv := by
    cases he with
    | reset l => exact makeFresh_inv s
    | command i => exact after_inv i hs
    | illegal w why hd => exact raise_inv hs fun hf => absurd rfl hf
    | quiet a ha => exact hs
  exact hu.congr (u.sameEngine_outside _ _ _)

end Sys2Proof.Machine
end

section
/-! The frames of the commands (10_state.md R13), what each event does to H (R14), the fields of STATUS (R24), the moves of
PHASE (R17) and the values at reset (R27). -/

namespace Sys2Proof.Machine

/-- Settles O27: each part is a frame of the command's effect. -/
theorem commandFrames : Obligations.CommandFrames := by
  refine ⟨fun s t h => ?_, fun s t d h => ?_, fun s t h => ?_⟩ <;> rw [eq_after_of_exec h]
  · exact after_sameOutside _ s
  · exact ⟨after_sameOutside _ s, fun hp => after_sameFaults hp (by simp), fun hp => after_sameHash hp (by simp),
      after_absorb_notFull d⟩
  · exact ⟨after_sameOutside _ s, fun hp => after_sameFaults hp (by simp), fun hp => after_sameHash hp (by simp)⟩

/-! ## The accumulator -/

/-- FINAL outside FINALIZED runs the compressor on the blocks of its tail. -/
theorem finish_h {s : State} (hw : Memory.wf s.buf = true) :
    s.finish.h = hashBlocks ((finalTail s.buf s.countTail.bitlen).length / 64) s.h
      (finalTail s.buf s.countTail.bitlen) := by
  simp only [State.finish_eq s hw, State.countTail, State.addBits_eq]

theorem finish_h_oneBlock {s : State} (hs : s.buf.length < 56) :
    (finalTail s.buf s.countTail.bitlen).length = 64 ∧
      s.finish.h = compress s.h (finalTail s.buf s.countTail.bitlen) := by
  have hlen : (finalTail s.buf s.countTail.bitlen).length = 64 := by
    rw [finalTail_length, padZeros, if_pos hs]; omega
  refine ⟨hlen, ?_⟩
  rw [finish_h (decide_eq_true (by omega)), hlen, hashBlocks_one, List.take_of_length_le hlen.le]

theorem finish_h_twoBlocks {s : State} (hw : Memory.wf s.buf = true) (hs : 56 ≤ s.buf.length) :
    (finalTail s.buf s.countTail.bitlen).length = 128 ∧
      s.finish.h = compress (compress s.h ((finalTail s.buf s.countTail.bitlen).take 64))
        ((finalTail s.buf s.countTail.bitlen).drop 64) := by
  have hlen : (finalTail s.buf s.countTail.bitlen).length = 128 := by
    have hlt := of_decide_eq_true hw
    rw [finalTail_length, padZeros, if_neg (by omega)]; omega
  refine ⟨hlen, ?_⟩
  have hdrop : ((finalTail s.buf s.countTail.bitlen).drop 64).length ≤ 64 := by rw [List.length_drop, hlen]
  rw [finish_h hw, hlen, hashBlocks_two, List.take_of_length_le hdrop]

/-- Settles O17: the four events that write H, each by its command's effect, and then all that a step can do besides. -/
theorem accumulatorIsWrittenByCompressor : Obligations.AccumulatorIsWrittenByCompressor := by
  refine ⟨fun s t hi h => ?_, fun s t e rest hw hi h => ⟨?_, ?_, ?_, ?_, ?_⟩⟩
  · cases (step_idle s hi).symm.trans h
    rfl
  · rintro (⟨l, rfl⟩ | rfl)
    · exact (sameEngine_of_step_reset hi h).h_eq.symm
    · exact (sameEngine_of_step_command hi h).h_eq.symm
  · rintro d rfl hp hl
    rw [← (sameEngine_of_step_command hi h).h_eq, after_absorb_of_open d hp, State.appendByte_full s d hl]
    exact ⟨by simp [hl], rfl⟩
  · rintro rfl hp hl
    rw [← (sameEngine_of_step_command hi h).h_eq, after_final_of_open hp]
    exact finish_h_oneBlock hl
  · rintro rfl hp hl
    rw [← (sameEngine_of_step_command hi h).h_eq, after_final_of_open hp]
    exact finish_h_twoBlocks hw hl
  · intro hreset hinit habsorb hfinal
    obtain ⟨-, rfl⟩ | ⟨e', rest', u, new, hi', he, -, rfl⟩ := step_effect h
    · rfl
    cases hi.symm.trans hi'
    cases he with
    | reset l => exact absurd rfl (hreset l)
    | command i =>
      cases i with
      | init => exact absurd rfl hinit
      | absorb d =>
        obtain hp | hl := habsorb d rfl
        · exact (after_sameHash hp (by simp)).h_eq.symm
        · exact (after_absorb_notFull d hl).1
      | final => exact (after_sameHash (hfinal rfl) (by simp)).h_eq.symm
    | illegal w why hd => exact (s.raise_frame _).2.h_eq.symm
    | quiet a ha => rfl

/-! ## STATUS, by the ranges of its bits -/

theorem status_bit_phase (s : State) {j : Nat} (hj : j < 2) : s.status.getLsbD j = s.phase.code.getLsbD j := by
  rw [State.status_bit s j (by omega)]
  simp [show ¬16 ≤ j by omega, show ¬8 ≤ j by omega, show j ≠ 3 by omega, show j ≠ 2 by omega]

theorem status_bit_reserved (s : State) {j : Nat} (hlo : 4 ≤ j) (hhi : j < 8) : s.status.getLsbD j = false := by
  rw [State.status_bit s j (by omega), Phase.code_bit _ _ (by omega)]
  simp [show ¬16 ≤ j by omega, show ¬8 ≤ j by omega, show j ≠ 3 by omega, show j ≠ 2 by omega]

theorem status_bit_pending (s : State) {j : Nat} (hlo : 8 ≤ j) (hhi : j < 16) :
    s.status.getLsbD j = s.buf.length.testBit (j - 8) := by
  rw [State.status_bit s j (by omega), Phase.code_bit _ _ (by omega)]
  simp [show ¬16 ≤ j by omega, hlo, show j ≠ 3 by omega, show j ≠ 2 by omega]

/-- A canonical BUF's length takes six bits. -/
theorem pending_bit_high {s : State} (hw : Memory.wf s.buf = true) {j : Nat} (hj : 6 ≤ j) :
    s.buf.length.testBit j = false :=
  Nat.testBit_lt_two_pow ((of_decide_eq_true hw).trans_le (Nat.pow_le_pow_right (by omega) hj : 2 ^ 6 ≤ 2 ^ j))

theorem status_bit_cause {s : State} (hw : Memory.wf s.buf = true) {j : Nat} (hlo : 16 ≤ j) (hhi : j < 32) :
    s.status.getLsbD j = s.cause.getLsbD (j - 16) := by
  rw [State.status_bit s j hhi, Phase.code_bit _ _ (by omega), pending_bit_high hw (by omega)]
  simp [hlo, show j ≠ 3 by omega, show j ≠ 2 by omega]

/-- Bits 1..0 of STATUS are PHASE's code. -/
theorem status_phase (s : State) : s.status.extractLsb' 0 2 = s.phase.code.setWidth 2 := by
  ext j hj
  rw [BitVec.getElem_extractLsb', status_bit_phase s (by omega)]
  simp

/-- Settles O37: each field bit by bit, by the range it lies in. -/
theorem statusFields : Obligations.StatusFields := by
  intro s hw
  refine ⟨status_phase s, ?_, ?_, ?_, ?_, ?_, ?_, ?_⟩
  · rw [State.status_bit s 2 (by omega), Phase.code_bit _ _ (by omega)]
    simp
  · rw [State.status_bit s 3 (by omega), Phase.code_bit _ _ (by omega)]
    simp
  · ext j hj
    rw [BitVec.getElem_extractLsb', status_bit_reserved s (by omega) (by omega), BitVec.getElem_zero]
  · have hfield : s.status.extractLsb' 8 6 = BitVec.ofNat 6 s.buf.length := by
      ext j hj
      rw [BitVec.getElem_extractLsb', status_bit_pending s (by omega) (by omega), Nat.add_sub_cancel_left,
        ← BitVec.getLsbD_eq_getElem, BitVec.getLsbD_ofNat, decide_eq_true hj, Bool.true_and]
    rw [hfield, BitVec.toNat_ofNat, Nat.mod_eq_of_lt (of_decide_eq_true hw)]
  · ext j hj
    rw [BitVec.getElem_extractLsb', status_bit_pending s (by omega) (by omega), pending_bit_high hw (by omega),
      BitVec.getElem_zero]
  · ext j hj
    rw [BitVec.getElem_extractLsb', status_bit_cause hw (by omega) (by omega), Nat.add_sub_cancel_left,
      BitVec.getLsbD_eq_getElem]
  · ext j hj
    rw [BitVec.getElem_extractLsb', status_bit_cause hw (by omega) (by omega), BitVec.getLsbD_of_ge _ _ (by omega),
      BitVec.getElem_zero]

/-- Settles O28: PHASE after each command, and after each event a step can serve. -/
theorem phaseTransitions : Obligations.PhaseTransitions := by
  refine ⟨fun s => ⟨_, exec_eq_after .init s, after_phase .init s⟩,
    fun s d => ⟨_, exec_eq_after (.absorb d) s, after_phase (.absorb d) s⟩,
    fun s => ⟨_, exec_eq_after .final s, after_phase .final s⟩, fun s t e rest hi h hne => ?_, fun s => ?_⟩
  · obtain ⟨-, rfl⟩ | ⟨e', rest', u, new, hi', he, -, rfl⟩ := step_effect h
    · exact absurd rfl hne
    cases hi.symm.trans hi'
    cases he with
    | reset l => exact .inl ⟨l, rfl, rfl⟩
    | command i => exact .inr ⟨i, rfl⟩
    | illegal w why hd => exact absurd (s.raise_frame _).2.phase_eq.symm hne
    | quiet a ha => exact absurd rfl hne
  · rw [status_phase]
    cases s.phase <;> rfl

/-! ## Reset -/

theorem digestWord_of_open {s : State} (hp : s.phase ≠ .finalized) (i : Fin 8) : s.digestWord i = 0x00000000#32 :=
  if_neg hp

/-- Settles O47: the table of R27, and INIT as the same values. -/
theorem resetValues : Obligations.ResetValues :=
  ⟨rfl, rfl, rfl, rfl, rfl, rfl, rfl, by decide, digestWord_of_open (by decide),
    fun s => ⟨_, execInit_eq s, rfl, rfl, rfl, rfl, rfl, rfl, rfl⟩⟩

end Sys2Proof.Machine
end

section
/-! Noninterference before FINAL (10_state.md R13, 43_bus_access.md R95): two engines that look alike to a host, and are not
FINALIZED, answer an event alike and look alike after it, unless it is FINAL. By induction over the events, they do so
throughout. -/

namespace Sys2Proof.Machine

/-- Only a write to BASE + 0x00 is admitted to CMD. -/
theorem eq_commandWrite_of_admission {base addr n off : Nat} {v : Word}
    (hadm : (Access.write addr n v).admission base = .admitted off) (hr : registerAt off = .cmd) :
    Access.write addr n v = commandWrite base v := by
  obtain rfl : off = 0 := by_contra fun h => registerAt_ne_cmd off h hr
  cases hw : (Access.write addr n v).inWindow base with
  | false =>
    rw [admission_outside _ _ hw] at hadm
    cases hadm
  | true =>
    by_cases hal : n = 4 ∧ (addr - base) % 4 = 0
    · rw [admission_admitted _ _ hw hal.1 hal.2] at hadm
      have hoff : addr - base = 0 := Admission.admitted.inj hadm
      have hle : base ≤ addr := ((inWindow_iff _ _).1 hw).1
      rw [hal.1, show addr = base by omega, commandWrite, Nat.add_zero]
    · rw [admission_busError _ _ hw (not_and_or.1 hal)] at hadm
      cases hadm

/-- Two engines that a host cannot tell apart before FINAL. -/
def Indistinguishable (s t : State) : Prop := s.SameToHost t ∧ s.phase ≠ .finalized

/-- Two outcomes are next states that a host cannot tell apart before FINAL. -/
def AlikeNext (o p : Host.Outcome State Fault Refusal) : Prop :=
  ∃ s t, o = .next s ∧ p = .next t ∧ Indistinguishable s t

theorem alikeNext_next {s t : State} (h : Indistinguishable s t) : AlikeNext (.next s) (.next t) := ⟨s, t, rfl, rfl, h⟩

namespace Indistinguishable

variable {s t : State}

theorem phase_right (h : Indistinguishable s t) : t.phase ≠ .finalized := h.1.1 ▸ h.2

theorem base_eq (h : Indistinguishable s t) : s.base = t.base := by
  obtain ⟨⟨-, -, -, hslot, -⟩, -⟩ := h
  rw [State.base, State.base, hslot]

theorem inputs_eq (h : Indistinguishable s t) : s.inputs = t.inputs := by
  obtain ⟨⟨-, -, -, -, hinputs, -⟩, -⟩ := h
  exact hinputs

theorem status_eq (h : Indistinguishable s t) : s.status = t.status := by
  obtain ⟨⟨hp, hl, ⟨hm, hi, hc⟩, -⟩, -⟩ := h
  rw [State.status, State.status, hp, hl, hm, hi, hc]

/-- No register shows H, BITLEN or a byte of BUF. -/
theorem readRegister_eq (h : Indistinguishable s t) (r : Register) : s.readRegister r = t.readRegister r := by
  cases r with
  | cmd => rfl
  | status => exact h.status_eq
  | reserved => rfl
  | digest i => exact (digestWord_of_open h.2 i).trans (digestWord_of_open h.phase_right i).symm

theorem setInputs (h : Indistinguishable s t) (l : List Event) : Indistinguishable (s.setInputs l) (t.setInputs l) := by
  obtain ⟨⟨hp, hl, hf, hslot, -, hresp⟩, ho⟩ := h
  exact ⟨⟨hp, hl, hf, hslot, rfl, hresp⟩, ho⟩

theorem respond (h : Indistinguishable s t) (r : Response) : Indistinguishable (s.respond r) (t.respond r) := by
  obtain ⟨⟨hp, hl, hf, hslot, hin, hresp⟩, ho⟩ := h
  exact ⟨⟨hp, hl, hf, hslot, hin, congrArg (· ++ [r]) hresp⟩, ho⟩

theorem makeFresh (h : Indistinguishable s t) : Indistinguishable s.makeFresh t.makeFresh := by
  obtain ⟨⟨-, -, -, hout⟩, -⟩ := h
  exact ⟨⟨rfl, rfl, ⟨rfl, rfl, rfl⟩, hout⟩, by simp [State.makeFresh_eq]⟩

theorem raise (h : Indistinguishable s t) (f : EngineFault) : Indistinguishable (s.raise f) (t.raise f) := by
  obtain ⟨⟨hp, hl, ⟨hm, hi, hc⟩, hout⟩, ho⟩ := h
  rw [State.raise_eq, State.raise_eq, hm, hi, hc]
  exact ⟨⟨hp, hl, ⟨rfl, rfl, rfl⟩, hout⟩, ho⟩

/-- Both fill the block or neither does: the number of pending bytes is alike. -/
theorem absorb (h : Indistinguishable s t) (d : Byte) :
    Indistinguishable ((s.appendByte d).setPhase .absorbing) ((t.appendByte d).setPhase .absorbing) := by
  obtain ⟨⟨-, hl, hfaults, hout⟩, -⟩ := h
  by_cases hfull : s.buf.length = 63
  · rw [State.appendByte_full s d hfull, State.appendByte_full t d (hl.symm.trans hfull)]
    exact ⟨⟨rfl, rfl, hfaults, hout⟩, by simp⟩
  · rw [State.appendByte_notFull s d hfull, State.appendByte_notFull t d (hl ▸ hfull)]
    exact ⟨⟨rfl, by simp [hl], hfaults, hout⟩, by simp⟩

theorem executeWord_alike (h : Indistinguishable s t) {w : Word} (hw : w ≠ encode .final) :
    AlikeNext (executeWord w s) (executeWord w t) := by
  cases hd : decode w with
  | illegal why => simpa only [executeWord, hd] using alikeNext_next (h.raise .illegalCommand)
  | command i =>
    simp only [executeWord, hd]
    cases i with
    | init => exact alikeNext_next h.makeFresh
    | absorb d =>
      simpa only [exec, execAbsorb_of_open d s h.2, execAbsorb_of_open d t h.phase_right] using alikeNext_next (h.absorb d)
    | final => exact absurd ((decode_eq_command_iff w .final).1 hd) hw

theorem serveAccess_alike (h : Indistinguishable s t) {a : Access} (ha : a ≠ commandWrite s.base (encode .final)) :
    AlikeNext (serveAccess a s) (serveAccess a t) := by
  rw [serveAccess, serveAccess, ← h.base_eq]
  cases hadm : a.admission s.base with
  | outside => exact alikeNext_next h
  | busError => exact alikeNext_next (h.respond .busError)
  | admitted off =>
    cases a with
    | read addr n =>
      simp only [serveAdmitted, h.readRegister_eq]
      exact alikeNext_next (h.respond _)
    | write addr n v =>
      simp only [serveAdmitted]
      by_cases hr : registerAt off = .cmd
      · rw [hr]
        refine (h.respond .done).executeWord_alike ?_
        rintro rfl
        exact ha (eq_commandWrite_of_admission hadm hr)
      · rw [writeRegister_of_ne_cmd _ _ _ hr, writeRegister_of_ne_cmd _ _ _ hr]
        exact alikeNext_next (h.respond .done)

theorem step_alike (h : Indistinguishable s t)
    (hfinal : Event.access (commandWrite s.base (encode .final)) ∉ s.inputs) : AlikeNext (step s) (step t) := by
  cases hi : s.inputs with
  | nil =>
    rw [step_idle s hi, step_idle t (h.inputs_eq ▸ hi)]
    exact alikeNext_next h
  | cons e rest =>
    have hrest := h.setInputs rest
    have hi' : t.inputs = e :: rest := h.inputs_eq ▸ hi
    cases e with
    | reset l =>
      rw [step_reset s l rest hi, step_reset t l rest hi']
      exact alikeNext_next hrest.makeFresh
    | access a =>
      rw [step_access s a rest hi, step_access t a rest hi']
      refine hrest.serveAccess_alike ?_
      rintro rfl
      exact hfinal (by rw [hi]; exact List.mem_cons_self)

theorem runSteps_alike (n : Nat) : ∀ {s t : State}, Indistinguishable s t →
    Event.access (commandWrite s.base (encode .final)) ∉ s.inputs → AlikeNext (runSteps n s) (runSteps n t) := by
  induction n with
  | zero => exact fun h _ => alikeNext_next h
  | succ n ih =>
    intro s t h hfinal
    obtain ⟨s', t', hs, ht, h'⟩ := h.step_alike hfinal
    obtain ⟨hslot, hinputs⟩ := step_baseSlot_inputs hs
    simp only [runSteps, hs, ht]
    refine ih h' ?_
    rw [State.base, hslot, hinputs]
    exact fun hmem => hfinal (List.mem_of_mem_tail hmem)

end Indistinguishable

/-- Settles O39: a run is as many steps as there are events, the same number for both engines. -/
theorem hashStateIsHiddenBeforeFinal : Obligations.HashStateIsHiddenBeforeFinal := by
  intro s t hst hp hfinal
  have h : Indistinguishable s t := ⟨hst, hp⟩
  obtain ⟨s', t', hs, ht, h', -⟩ := h.runSteps_alike s.inputs.length hfinal
  exact ⟨s', t', hs, by rw [runInputs, ← h.inputs_eq]; exact ht, h'⟩

end Sys2Proof.Machine
end

section
/-! The message schedule (20_memory.md R30, 41_compressor.md R67, R68): expansion adds each word by the recurrence and never
changes one it has, so the recurrence holds of the whole schedule. -/

namespace Sys2Proof.Machine

/-- The recurrence reads only words before r. -/
theorem nextScheduleWord_congr {V W : List Word} {r : Nat} (hr : 16 ≤ r)
    (h : ∀ i < r, scheduleWord V i = scheduleWord W i) : nextScheduleWord V r = nextScheduleWord W r := by
  rw [nextScheduleWord, nextScheduleWord, h (r - 2) (by omega), h (r - 7) (by omega), h (r - 15) (by omega),
    h (r - 16) (by omega)]

theorem scheduleWord_append_singleton (W : List Word) (w : Word) : scheduleWord (W ++ [w]) W.length = w := by
  simp [scheduleWord]

/-- Every word that expansion adds is the recurrence's, read from the finished schedule. -/
theorem expandSchedule_recurrence (n : Nat) (W : List Word) (r : Nat) (hW : 16 ≤ W.length) (hlo : W.length ≤ r)
    (hhi : r < W.length + n) :
    scheduleWord (expandSchedule n W) r = nextScheduleWord (expandSchedule n W) r := by
  induction n generalizing W with
  | zero => omega
  | succ n ih =>
    have hlen : (W ++ [nextScheduleWord W W.length]).length = W.length + 1 := List.length_append
    obtain rfl | hlt := hlo.eq_or_lt
    · calc scheduleWord (expandSchedule (n + 1) W) W.length
        _ = nextScheduleWord W W.length := by
          rw [expandSchedule, expandSchedule_prefix _ _ _ (by omega), scheduleWord_append_singleton]
        _ = nextScheduleWord (expandSchedule (n + 1) W) W.length :=
          nextScheduleWord_congr hW fun i hi => (expandSchedule_prefix _ W i hi).symm
    · exact ih _ (by omega) (by omega) (by omega)

theorem schedule_length (B : List Byte) : (schedule B).length = 64 := by
  rw [schedule, expandSchedule_length, loadSchedule_length]

theorem scheduleWord_schedule_load (B : List Byte) {i : Nat} (hi : i < 16) :
    scheduleWord (schedule B) i = blockWord B i := by
  rw [schedule, expandSchedule_prefix _ _ _ (by simpa using hi)]
  simp [scheduleWord, loadSchedule, hi]

theorem scheduleWord_schedule_next (B : List Byte) {r : Nat} (hlo : 16 ≤ r) (hhi : r < 64) :
    scheduleWord (schedule B) r = nextScheduleWord (schedule B) r :=
  expandSchedule_recurrence 48 (loadSchedule B) r (by simp) (by simpa using hlo) (by simpa using hhi)

/-- The words of a block of 64 equal bytes. -/
theorem blockWord_replicate (b : Byte) {i : Nat} (hi : i < 16) : blockWord (List.replicate 64 b) i = be32 b b b b := by
  have hbyte : ∀ j < 64, blockByte (List.replicate 64 b) j = b := fun j hj => List.getD_replicate _ hj
  rw [blockWord, hbyte _ (by omega), hbyte _ (by omega), hbyte _ (by omega), hbyte _ (by omega)]

theorem scheduleWord_replicate_load (b : Byte) {i : Nat} (hi : i < 16) :
    scheduleWord (schedule (List.replicate 64 b)) i = be32 b b b b := by
  rw [scheduleWord_schedule_load _ hi, blockWord_replicate b hi]

/-- In a block of equal bytes the recurrence for W[16] to W[22] reads loaded words in three of its four terms. -/
theorem scheduleWord_replicate_next (b : Byte) {r : Nat} (hlo : 16 ≤ r) (hhi : r < 23) :
    scheduleWord (schedule (List.replicate 64 b)) r =
      smallSigma1 (scheduleWord (schedule (List.replicate 64 b)) (r - 2)) + be32 b b b b +
        smallSigma0 (be32 b b b b) + be32 b b b b := by
  rw [scheduleWord_schedule_next _ hlo (by omega), nextScheduleWord, scheduleWord_replicate_load b (i := r - 7) (by omega),
    scheduleWord_replicate_load b (i := r - 15) (by omega), scheduleWord_replicate_load b (i := r - 16) (by omega)]

/-- R68's first corner case: from zero words the recurrence gives zero. -/
theorem scheduleWord_zeroBlock (r : Nat) (hr : r < 64) : scheduleWord (schedule (List.replicate 64 0x00#8)) r = 0#32 := by
  induction r using Nat.strong_induction_on with
  | h r ih =>
    by_cases hlo : r < 16
    · exact scheduleWord_replicate_load 0x00#8 hlo
    · rw [scheduleWord_schedule_next _ (by omega) hr, nextScheduleWord, ih (r - 2) (by omega) (by omega),
        ih (r - 7) (by omega) (by omega), ih (r - 15) (by omega) (by omega), ih (r - 16) (by omega) (by omega)]
      decide

/-- R68's second corner case: W[16] and W[17] read loaded words alone, W[18] and W[19] those two besides. -/
theorem scheduleWord_onesBlock :
    scheduleWord (schedule (List.replicate 64 0xff#8)) 16 = 0x203ffffc#32 ∧
    scheduleWord (schedule (List.replicate 64 0xff#8)) 17 = 0x203ffffc#32 ∧
    scheduleWord (schedule (List.replicate 64 0xff#8)) 18 = 0x20099be4#32 ∧
    scheduleWord (schedule (List.replicate 64 0xff#8)) 19 = 0x20099be4#32 := by
  have hfirst : ∀ r, 16 ≤ r → r < 18 → scheduleWord (schedule (List.replicate 64 0xff#8)) r = 0x203ffffc#32 :=
    fun r hlo hhi => by
      rw [scheduleWord_replicate_next _ hlo (by omega), scheduleWord_replicate_load _ (by omega)]
      decide
  have hsecond : ∀ r, 18 ≤ r → r < 20 → scheduleWord (schedule (List.replicate 64 0xff#8)) r = 0x20099be4#32 :=
    fun r hlo hhi => by
      rw [scheduleWord_replicate_next _ (by omega) (by omega), hfirst (r - 2) (by omega) (by omega)]
      decide
  exact ⟨hfirst 16 (by omega) (by omega), hfirst 17 (by omega) (by omega), hsecond 18 (by omega) (by omega),
    hsecond 19 (by omega) (by omega)⟩

/-- Settles O15: the words loaded and the words expanded, and R68's two corner cases from them. -/
theorem scheduleFollowsRecurrence : Obligations.ScheduleFollowsRecurrence :=
  ⟨fun B _ => ⟨schedule_length B, fun _ hi => scheduleWord_schedule_load B hi,
    fun _ hlo hhi => scheduleWord_schedule_next B hlo hhi⟩, scheduleWord_zeroBlock, scheduleWord_onesBlock⟩

end Sys2Proof.Machine
end

section
/-! The byte order of the digest (20_memory.md R32, R44): four bytes a word, word after word. -/

namespace Sys2Proof.Machine

@[simp] theorem bytesBe32_length (w : Word) : (bytesBe32 w).length = 4 := rfl

theorem bytesBe32_getElem? (w : Word) (j : Fin 4) : (bytesBe32 w)[j.val]? = some (w.extractLsb' (24 - 8 * j.val) 8) := by
  fin_cases j <;> rfl

/-- Each word before the i-th takes four bytes. -/
theorem bytesOfWords_getElem? (ws : List Word) (i : Nat) {j : Nat} (hj : j < 4) :
    (bytesOfWords ws)[4 * i + j]? = ws[i]?.map (·.extractLsb' (24 - 8 * j) 8) := by
  induction ws generalizing i with
  | nil => rfl
  | cons w ws ih =>
    have hcons : bytesOfWords (w :: ws) = bytesBe32 w ++ bytesOfWords ws := rfl
    rw [hcons]
    cases i with
    | zero =>
      rw [Nat.mul_zero, Nat.zero_add, List.getElem?_append_left hj]
      exact bytesBe32_getElem? w ⟨j, hj⟩
    | succ i =>
      rw [List.getElem?_append_right (by rw [bytesBe32_length]; omega), bytesBe32_length,
        show 4 * (i + 1) + j - 4 = 4 * i + j by omega, ih, List.getElem?_cons_succ]

theorem accumulatorBytes_getElem? (H : Accumulator) (i : Fin 8) {j : Nat} (hj : j < 4) :
    (accumulatorBytes H)[4 * i.val + j]? = some ((H[i]).extractLsb' (24 - 8 * j) 8) := by
  have hword : H.toList[i.val]? = some H[i] := by simp
  rw [accumulatorBytes, accumulatorWords, bytesOfWords_getElem? _ _ hj, hword, Option.map_some]

theorem digestWord_of_finalized {s : State} (hp : s.phase = .finalized) (i : Fin 8) : s.digestWord i = s.h[i] :=
  if_pos hp

/-- Settles O38: the bytes of H, which in FINALIZED the digest registers show. -/
theorem digestByteOrder : Obligations.DigestByteOrder := by
  intro s i j hj
  have hbyte := accumulatorBytes_getElem? s.h i hj
  refine ⟨hbyte, fun hp => ?_⟩
  rw [digestWord_of_finalized hp]
  exact hbyte

end Sys2Proof.Machine
end

section
/-! The words of the three commands and the decoder on them: encoding gives the words of R47's table, and what is not one of
them is ILLEGAL (30_encoding.md R47 to R49). -/

namespace Sys2Proof

theorem Decoded.instr?_eq_some_iff {d : Decoded} {i : Instr} : d.instr? = some i ↔ d = .command i := by
  cases d <;> simp [Decoded.instr?]

theorem Decoded.instr?_eq_none_iff {d : Decoded} : d.instr? = none ↔ ∃ why, d = .illegal why := by
  cases d <;> simp [Decoded.instr?]

theorem instr?_decode_eq_some_iff {w : Word} {i : Instr} : (decode w).instr? = some i ↔ w = encode i :=
  Decoded.instr?_eq_some_iff.trans (decode_eq_command_iff w i)

/-- The table's numbering of a command is its word. -/
theorem decodeTableWord_toNat (w : Word) : decodeTableWord 32 w.toNat = (decode w).instr? := by
  rw [decodeTableWord, Nat.mod_eq_of_lt w.isLt, BitVec.ofNat_toNat, BitVec.setWidth_eq]

theorem decodeTableWord_encode (i : Instr) : decodeTableWord 32 (encode i).toNat = some i := by
  rw [decodeTableWord_toNat, decode_encode, Decoded.instr?]

theorem encode_init : encode .init = 0x10000000#32 := rfl

theorem encode_final : encode .final = 0x30000000#32 := rfl

theorem encode_absorb (d : Byte) : encode (.absorb d) = 0x200000#24 ++ d :=
  congrArg (· ++ d) (show Config.opAbsorb ++ 0#20 = 0x200000#24 by decide)

/-- A word is its 24 high bits above its DATA field. -/
theorem word_eq_append (w : Word) : w = w.extractLsb' 8 24 ++ w.extractLsb' 0 8 := by
  rw [BitVec.extractLsb'_append_extractLsb'_eq_extractLsb' (show 8 = 0 + 8 from rfl)]
  exact BitVec.extractLsb'_eq_self.symm

/-- R48's test for ABSORB: the bits above DATA decide. -/
theorem eq_encode_absorb_iff (w : Word) :
    w = encode (.absorb (w.extractLsb' 0 8)) ↔ w.extractLsb' 8 24 = 0x200000#24 := by
  constructor
  · intro h
    rw [h, encode_absorb]
    exact BitVec.extractLsb'_append_eq_left
  · intro h
    rw [encode_absorb, ← h]
    exact word_eq_append w

/-- The mask of ABSORB's row clears the DATA field. -/
theorem and_mask_absorb (w : Word) : w &&& 0xFFFFFF00#32 = w.extractLsb' 8 24 ++ 0#8 := by
  calc w &&& 0xFFFFFF00#32
    _ = (w.extractLsb' 8 24 ++ w.extractLsb' 0 8) &&& (BitVec.allOnes 24 ++ 0#8) := by rw [← word_eq_append]; rfl
    _ = w.extractLsb' 8 24 ++ 0#8 := by rw [BitVec.and_append, BitVec.and_allOnes, BitVec.and_zero]

theorem Fields.select_eq_command (f : Fields) : ∃ i, f.select = .command i := by
  rw [Fields.select]
  split
  · exact ⟨_, rfl⟩
  · split
    · exact ⟨_, rfl⟩
    · exact ⟨_, rfl⟩

/-- Fields decode to no command exactly when one of the three checks fails. -/
theorem Fields.instr?_decode_eq_none_iff (f : Fields) : f.decode.instr? = none ↔ f.wellFormed = false := by
  obtain ⟨i, hi⟩ := f.select_eq_command
  rw [Fields.decode, Fields.wellFormed, hi]
  cases f.opAssigned with
  | false => simp [Decoded.instr?]
  | true =>
    cases f.rsvZero with
    | false => simp [Decoded.instr?]
    | true => cases f.dataAllowed <;> simp [Decoded.instr?]

theorem Fields.opAssigned_eq_false_iff (f : Fields) : f.opAssigned = false ↔ f.op = 0x0#4 ∨ 0x4 ≤ f.op.toNat := by
  have hall : ∀ op : BitVec 4, (op == Config.opInit || op == Config.opAbsorb || op == Config.opFinal) = false ↔
      op = 0x0#4 ∨ 0x4 ≤ op.toNat := by decide
  exact hall f.op

theorem Fields.opAssigned_iff (f : Fields) : f.opAssigned = true ↔ f.op = 0x1#4 ∨ f.op = 0x2#4 ∨ f.op = 0x3#4 := by
  simp [Fields.opAssigned, or_assoc]

theorem Fields.dataAllowed_eq_false_iff {f : Fields} (h : f.opAssigned = true) :
    f.dataAllowed = false ↔ (f.op = 0x1#4 ∨ f.op = 0x3#4) ∧ f.data ≠ 0#8 := by
  obtain hop | hop | hop := f.opAssigned_iff.1 h <;> simp [Fields.dataAllowed, Config.opAbsorb, hop]

/-- The three ways of R49: RSV counts under an assigned OP, DATA under INIT or FINAL. -/
theorem Fields.wellFormed_eq_false_iff (f : Fields) : f.wellFormed = false ↔
    (f.op = 0x0#4 ∨ 0x4 ≤ f.op.toNat) ∨
      ((f.op = 0x1#4 ∨ f.op = 0x2#4 ∨ f.op = 0x3#4) ∧ f.rsv ≠ 0#20) ∨
      ((f.op = 0x1#4 ∨ f.op = 0x3#4) ∧ f.data ≠ 0#8) := by
  rw [← f.opAssigned_eq_false_iff, ← f.opAssigned_iff, Fields.wellFormed]
  cases h : f.opAssigned with
  | false => simp
  | true =>
    rw [← Fields.dataAllowed_eq_false_iff h, Bool.and_eq_false_iff]
    simp [Fields.rsvZero]

/-- Settles O3: the two inverses by lemma, the table's numbering being the word's. -/
theorem decodeInvertsEncode : Obligations.DecodeInvertsEncode :=
  ⟨fun i w => decode_eq_command_iff w i, fun i _ => decodeTableWord_encode i⟩

/-- Settles O1: each test of the chain says that the word is a command's, and a command's word passes one of them. -/
theorem decoderFollowsRuleChain : Obligations.DecoderFollowsRuleChain := by
  intro w
  rw [← encode_init, ← encode_final]
  split_ifs with hinit habsorb hfinal
  · exact instr?_decode_eq_some_iff.2 hinit
  · exact instr?_decode_eq_some_iff.2 ((eq_encode_absorb_iff w).2 habsorb)
  · exact instr?_decode_eq_some_iff.2 hfinal
  · refine Option.eq_none_iff_forall_ne_some.2 fun i hi => ?_
    have hw := instr?_decode_eq_some_iff.1 hi
    cases i with
    | init => exact hinit hw
    | absorb d =>
      have hd : w.extractLsb' 0 8 = d := by rw [hw, encode_absorb]; exact BitVec.extractLsb'_append_eq_right
      exact habsorb ((eq_encode_absorb_iff w).1 (hd.symm ▸ hw))
    | final => exact hfinal hw

/-- R47's row of ABSORB. -/
theorem and_mask_absorb_eq_iff (w : Word) :
    w &&& 0xFFFFFF00#32 = 0x20000000#32 ↔ decode w = .command (.absorb (w.extractLsb' 0 8)) := by
  rw [decode_eq_command_iff, eq_encode_absorb_iff, and_mask_absorb, show 0x20000000#32 = 0x200000#24 ++ 0#8 from rfl]
  exact BitVec.append_left_inj _

/-- Settles O4: a row selects what decodes to its command, and a word decodes to one command. -/
theorem tableRowsSelectCommands : Obligations.TableRowsSelectCommands := by
  intro w
  have hfull : w &&& 0xFFFFFFFF#32 = w := BitVec.and_allOnes
  have hinit : w &&& 0xFFFFFFFF#32 = 0x10000000#32 ↔ decode w = .command .init := by
    rw [hfull, decode_eq_command_iff, encode_init]
  have hfinal : w &&& 0xFFFFFFFF#32 = 0x30000000#32 ↔ decode w = .command .final := by
    rw [hfull, decode_eq_command_iff, encode_final]
  have habsorb := and_mask_absorb_eq_iff w
  refine ⟨hinit, habsorb, hfinal, ?_⟩
  rw [hinit, habsorb, hfinal]
  refine ⟨?_, ?_, ?_⟩ <;>
  · rintro ⟨h, h'⟩
    cases h.symm.trans h'

/-- Settles O5: the legal words are encodings, and the illegal ones fail a check. -/
theorem sampleWordsDecode : Obligations.SampleWordsDecode :=
  ⟨decodeTableWord_encode .init, decodeTableWord_encode (.absorb 0x00#8), decodeTableWord_encode (.absorb 0x61#8),
    decodeTableWord_encode (.absorb 0xff#8), decodeTableWord_encode .final, by decide⟩

end Sys2Proof
end

section
/-! Illegal words at CMD, and the accesses of the pseudo-instructions (30_encoding.md R49, R51, R52). -/

namespace Sys2Proof.Machine

theorem executeWord_illegal {w : Word} (h : (decode w).instr? = none) (s : State) :
    executeWord w s = .next (s.raise .illegalCommand) := by
  obtain ⟨why, hd⟩ := Decoded.instr?_eq_none_iff.1 h
  rw [executeWord, hd]

/-- Settles O2: the checks on the word's fields, and the fault that the step raises. -/
theorem illegalWordsAreReported : Obligations.IllegalWordsAreReported := by
  refine ⟨fun w => ?_, fun s w rest hi hw => ?_⟩
  · rw [decode, Fields.instr?_decode_eq_none_iff]
    exact (Fields.ofWord w).wellFormed_eq_false_iff
  · refine ⟨_, (step_command s w rest hi).trans (executeWord_illegal hw _), ?_⟩
    rw [raise_served, State.raise_eq]
    simp [State.SameEngine, EngineFault.code]

theorem commandAccess_absorb (base : Nat) (d : Byte) :
    commandAccess base (.absorb d) = .write base 4 (0x20000000#32 ||| d.setWidth 32) := by
  rw [commandAccess, encode_absorb, BitVec.append_def, BitVec.setWidth'_eq]
  rfl

theorem accesses_absorbs (base : Nat) (m : List Byte) : HostLine.accesses base (.absorbs m) =
    m.map fun b => Access.write base 4 (0x20000000#32 ||| b.setWidth 32) := by
  simp only [HostLine.accesses, absorbCommands, List.map_map, Function.comp_def, commandAccess_absorb]

theorem accesses_hash (base : Nat) (m : List Byte) : HostLine.accesses base (.hash m) =
    commandAccess base .init :: (HostLine.accesses base (.absorbs m) ++ [commandAccess base .final]) := by
  simp only [HostLine.accesses, hashCommands, List.map_cons, List.map_append, List.map_nil]

/-- Settles O6: HASH is the accesses of ABSORBS between those of INIT and FINAL. -/
theorem pseudoInstructionsExpand : Obligations.PseudoInstructionsExpand :=
  fun base m => ⟨accesses_absorbs base m, by rw [accesses_hash, accesses_absorbs]; rfl, rfl⟩

end Sys2Proof.Machine
end

section
/-! The words' arithmetic and the functions on them, bit by bit (40_functions.md R53 to R63): the shift and the rotation say
once which bit of their argument each bit is, and the sigmas follow from that. -/

namespace Sys2Proof.Machine

/-- Settles O7: the words' sum is that of bit vectors. -/
theorem additionsWrap : Obligations.AdditionsWrap :=
  ⟨BitVec.toNat_add, fun x y z => ⟨BitVec.add_assoc x y z, BitVec.add_comm x y⟩, BitVec.toNat_add⟩

/-- Settles O8: bits 0 to 31 of bit vectors; all ones minus a word borrows nowhere, so it is the complement. -/
theorem bitwiseOperationsByBit : Obligations.BitwiseOperationsByBit := fun x y i hi =>
  ⟨BitVec.getLsbD_xor, BitVec.getLsbD_and, BitVec.getLsbD_or, by rw [BitVec.getLsbD_not, decide_eq_true hi, Bool.true_and],
    (BitVec.allOnes_sub_eq_not x).symm⟩

/-- R56 for every amount: zeros come in from above. -/
theorem getLsbD_shr32 (x : Word) (n i : Nat) :
    (shr32 x n).getLsbD i = (decide (i + n < 32) && x.getLsbD (i + n)) := by
  rw [BitVec.getLsbD_ushiftRight, Nat.add_comm]
  by_cases h : i + n < 32
  · rw [decide_eq_true h, Bool.true_and]
  · rw [decide_eq_false h, Bool.false_and, BitVec.getLsbD_of_ge x _ (Nat.le_of_not_lt h)]

/-- Settles O9: the bits by lemma, for every amount. -/
theorem shiftFillsWithZeros : Obligations.ShiftFillsWithZeros := by
  intro x n _
  refine ⟨?_, fun i _ => ?_⟩
  · rw [BitVec.toNat_ushiftRight, Nat.shiftRight_eq_div_pow]
  · rw [getLsbD_shr32, Bool.if_false_right]
    exact congrArg (· && x.getLsbD (i + n)) (decide_eq_decide.2 Nat.lt_succ_iff)

/-- `rotr` is the library's rotation, for the amounts it has a meaning for. -/
theorem rotr_eq_rotateRight (x : Word) {n : Nat} (hn : n < 32) : rotr x n = x.rotateRight n := by
  rw [BitVec.rotateRight_def, Nat.mod_eq_of_lt hn, rotr]

/-- R57's bit form: below 32 - n the right shift gives the bit, from there on the left shift does. -/
theorem getLsbD_rotr (x : Word) {n i : Nat} (hn : n < 32) (hi : i < 32) :
    (rotr x n).getLsbD i = x.getLsbD ((i + n) % 32) := by
  rw [rotr_eq_rotateRight x hn, BitVec.getLsbD_rotateRight_of_lt hn]
  by_cases h : i < 32 - n
  · rw [decide_eq_true h, cond_true, Nat.mod_eq_of_lt (by omega), Nat.add_comm]
  · have hwrap : (i + n) % 32 = i - (32 - n) := by omega
    rw [decide_eq_false h, cond_false, decide_eq_true hi, Bool.true_and, hwrap]

/-- Settles O10: the formula is the definition, the bit form by lemma. -/
theorem rotationMovesBits : Obligations.RotationMovesBits :=
  fun x _ _ hn => ⟨rfl, fun _ hi => getLsbD_rotr x (Nat.lt_succ_of_le hn) hi⟩

theorem getLsbD_ch (x y z : Word) {i : Nat} (hi : i < 32) :
    (ch x y z).getLsbD i = if x.getLsbD i then y.getLsbD i else z.getLsbD i := by
  simp only [ch, BitVec.getLsbD_xor, BitVec.getLsbD_and, BitVec.getLsbD_not, decide_eq_true hi]
  cases x.getLsbD i <;> simp

theorem getLsbD_maj (x y z : Word) (i : Nat) : (maj x y z).getLsbD i =
    decide (2 ≤ (x.getLsbD i).toNat + (y.getLsbD i).toNat + (z.getLsbD i).toNat) := by
  have hmajority : ∀ a b c : Bool,
      (((a && b) ^^ (a && c)) ^^ (b && c)) = decide (2 ≤ a.toNat + b.toNat + c.toNat) := by decide
  simp only [maj, BitVec.getLsbD_xor, BitVec.getLsbD_and]
  exact hmajority _ _ _

theorem ch_allOnes (y z : Word) : ch (BitVec.allOnes 32) y z = y := by
  refine BitVec.eq_of_getLsbD_eq fun i hi => ?_
  rw [getLsbD_ch _ _ _ hi, BitVec.getLsbD_allOnes, decide_eq_true hi, if_pos rfl]

theorem ch_zero (y z : Word) : ch 0#32 y z = z := by
  refine BitVec.eq_of_getLsbD_eq fun i hi => ?_
  rw [getLsbD_ch _ _ _ hi, BitVec.getLsbD_zero, if_neg Bool.false_ne_true]

theorem maj_self (x z : Word) : maj x x z = x := by simp [maj]

theorem maj_allOnes (y z : Word) : maj (BitVec.allOnes 32) y z = y ||| z := by
  refine BitVec.eq_of_getLsbD_eq fun i hi => ?_
  rw [getLsbD_maj, BitVec.getLsbD_allOnes, decide_eq_true hi, BitVec.getLsbD_or]
  cases y.getLsbD i <;> cases z.getLsbD i <;> rfl

theorem maj_zero (y z : Word) : maj 0#32 y z = y &&& z := by simp [maj]

/-- Settles O11: the formulas are the definitions; the bits and the corner cases by lemma. -/
theorem chooseAndMajority : Obligations.ChooseAndMajority := fun x y z =>
  ⟨rfl, rfl, fun i hi => ⟨getLsbD_ch x y z hi, getLsbD_maj x y z i⟩, ch_allOnes y z, ch_zero y z, maj_self x z,
    maj_allOnes y z, maj_zero y z⟩

theorem getLsbD_bigSigma0 (x : Word) {i : Nat} (hi : i < 32) : (bigSigma0 x).getLsbD i =
    (x.getLsbD ((i + 2) % 32) ^^ x.getLsbD ((i + 13) % 32) ^^ x.getLsbD ((i + 22) % 32)) := by
  simp only [bigSigma0, BitVec.getLsbD_xor, getLsbD_rotr, hi, Nat.reduceLT, Bool.xor_assoc]

theorem getLsbD_bigSigma1 (x : Word) {i : Nat} (hi : i < 32) : (bigSigma1 x).getLsbD i =
    (x.getLsbD ((i + 6) % 32) ^^ x.getLsbD ((i + 11) % 32) ^^ x.getLsbD ((i + 25) % 32)) := by
  simp only [bigSigma1, BitVec.getLsbD_xor, getLsbD_rotr, hi, Nat.reduceLT, Bool.xor_assoc]

theorem getLsbD_smallSigma0 (x : Word) {i : Nat} (hi : i < 32) : (smallSigma0 x).getLsbD i =
    (x.getLsbD ((i + 7) % 32) ^^ x.getLsbD ((i + 18) % 32) ^^ (decide (i + 3 < 32) && x.getLsbD (i + 3))) := by
  simp only [smallSigma0, BitVec.getLsbD_xor, getLsbD_rotr, getLsbD_shr32, hi, Nat.reduceLT, Bool.xor_assoc]

theorem getLsbD_smallSigma1 (x : Word) {i : Nat} (hi : i < 32) : (smallSigma1 x).getLsbD i =
    (x.getLsbD ((i + 17) % 32) ^^ x.getLsbD ((i + 19) % 32) ^^ (decide (i + 10 < 32) && x.getLsbD (i + 10))) := by
  simp only [smallSigma1, BitVec.getLsbD_xor, getLsbD_rotr, getLsbD_shr32, hi, Nat.reduceLT, Bool.xor_assoc]

/-- Settles O12: the bits by lemma; the corner cases are closed words. -/
theorem sigmasByBit : Obligations.SigmasByBit :=
  ⟨fun x _ hi => ⟨getLsbD_bigSigma0 x hi, getLsbD_bigSigma1 x hi, getLsbD_smallSigma0 x hi, getLsbD_smallSigma1 x hi⟩,
    by decide⟩

end Sys2Proof.Machine
end

section
/-! The tables H0 and K (40_functions.md R64, R65): no prime of either table has a large root, so each root's integer part is
found among the first few numbers, and the inequalities are closed. -/

namespace Sys2Proof.Machine

/-- The square roots of the first 8 primes are below 5. -/
theorem initialHash_isRootFraction : ∀ i : Fin 8, ∃ n : Fin 5,
    (n.val * 2 ^ 32 + (initialHash[i]).toNat) ^ 2 ≤ firstPrimes.getD i.val 0 * 2 ^ 64 ∧
    firstPrimes.getD i.val 0 * 2 ^ 64 < (n.val * 2 ^ 32 + (initialHash[i]).toNat + 1) ^ 2 := by
  decide

/-- The cube roots of the first 64 primes are below 7. -/
theorem roundConstants_isRootFraction : ∀ i : Fin 64, ∃ n : Fin 7,
    (n.val * 2 ^ 32 + (roundConstants.getD i 0#32).toNat) ^ 3 ≤ firstPrimes.getD i 0 * 2 ^ 96 ∧
    firstPrimes.getD i 0 * 2 ^ 96 < (n.val * 2 ^ 32 + (roundConstants.getD i 0#32).toNat + 1) ^ 3 := by
  decide

/-- Settles O13: the integer parts by lemma. -/
theorem tablesAreRootFractions : Obligations.TablesAreRootFractions := by
  refine ⟨fun i => ?_, rfl, fun i hi => ?_⟩
  · obtain ⟨n, h⟩ := initialHash_isRootFraction i
    exact ⟨n, h⟩
  · obtain ⟨n, h⟩ := roundConstants_isRootFraction ⟨i, hi⟩
    exact ⟨n, h⟩

end Sys2Proof.Machine
end

section
/-! The rounds of one compression (41_compressor.md R69 to R72), as the sequence of working variables before each round. -/

namespace Sys2Proof.Machine

/-- The working variables after the first `r` rounds of a compression with schedule `W`, from `v`. -/
def workingAfter (W : List Word) (v : Working) (r : Nat) : Working := (List.range r).foldl (compressRoundAt W) v

@[simp] theorem workingAfter_zero (W : List Word) (v : Working) : workingAfter W v 0 = v := rfl

theorem workingAfter_succ (W : List Word) (v : Working) (r : Nat) :
    workingAfter W v (r + 1) = compressRoundAt W (workingAfter W v r) r := by
  simp only [workingAfter, List.range_succ, List.foldl_append, List.foldl_cons, List.foldl_nil]

theorem compressRounds_eq_workingAfter (W : List Word) (v : Working) : compressRounds W v = workingAfter W v 64 := rfl

/-- Settles O16: the sequence is the working variables after r rounds, and its last member is the one fed forward. -/
theorem compressRunsSixtyFourRounds : Obligations.CompressRunsSixtyFourRounds := by
  intro H B hB
  refine ⟨workingAfter (schedule B) (workingCopy H), workingAfter_zero _ _, fun r _ => ?round, ?feedForward⟩
  case round => exact workingAfter_succ _ _ r
  case feedForward => rw [compress_of_block H B hB, compressRounds_eq_workingAfter, feedForward]

end Sys2Proof.Machine
end

section
/-! A command run on its own and in a sequence (42_commands.md R76 to R78): every command answers a next state, so a
sequence of them answers the last. -/

namespace Sys2Proof.Machine

/-- The state a sequence of commands makes. -/
def afterAll (is : List Instr) (s : State) : State := is.foldl (fun s i => after i s) s

@[simp] theorem afterAll_nil (s : State) : afterAll [] s = s := rfl

@[simp] theorem afterAll_cons (i : Instr) (is : List Instr) (s : State) :
    afterAll (i :: is) s = afterAll is (after i s) := rfl

@[simp] theorem afterAll_append (is js : List Instr) (s : State) :
    afterAll (is ++ js) s = afterAll js (afterAll is s) := List.foldl_append

theorem execAll_eq_afterAll (is : List Instr) (s : State) : execAll is s = .next (afterAll is s) := by
  induction is generalizing s with
  | nil => rfl
  | cons i is ih => rw [execAll, exec_eq_after, afterAll_cons]; exact ih _

/-- With no fault recorded and nothing pending, STATUS is PHASE's code. -/
theorem status_eq_phase_code {s : State} (hb : s.buf = []) (hm : s.errMisuse = false) (hi : s.errIllegal = false)
    (hc : s.cause = 0#4) : s.status = s.phase.code := by
  simp [State.status, flagWord, hb, hm, hi, hc]

/-- Settles O18: the Fresh state's registers, and that making it twice is making it once. -/
theorem initMakesFresh : Obligations.InitMakesFresh :=
  ⟨fun s => ⟨s.makeFresh, execInit_eq s, s.makeFresh_eq, status_eq_phase_code rfl rfl rfl rfl,
    digestWord_of_open (by simp [State.makeFresh_eq]), rfl⟩, rfl⟩

/-- Settles O19: the three cases of ABSORB, by what appending and raising write. -/
theorem absorbAppendsOrCompresses : Obligations.AbsorbAppendsOrCompresses := by
  refine fun s d => ⟨fun hp hl => ?notFull, fun hp hl => ?full, fun hp => ?finalized⟩
  case notFull => rw [exec_eq_after, after_absorb_of_open d hp, State.appendByte_notFull s d hl]; rfl
  case full => rw [exec_eq_after, after_absorb_of_open d hp, State.appendByte_full s d hl]; rfl
  case finalized =>
    have hraise : exec (.absorb d) s = .next (s.raise .absorbAfterFinal) := execAbsorb_of_finalized d s hp
    rw [hraise, State.raise_eq]
    simp [EngineFault.code]

/-- Settles O22: FINAL raises in FINALIZED, which leaves H and PHASE, and elsewhere finishes with its frame. -/
theorem finalIsSingleUse : Obligations.FinalIsSingleUse := by
  refine fun s => ⟨fun hp => ?finalized, fun hp => ?legal⟩
  case finalized =>
    refine ⟨s.raise .finalAfterFinal, execFinal_of_finalized s hp, ?_, fun i => ?_⟩
    · rw [State.raise_eq]
      simp [EngineFault.code]
    · rw [State.raise_eq]
      rfl
  case legal =>
    have hopen : s.phase ≠ .finalized := by rcases hp with hp | hp <;> simp [hp]
    obtain ⟨-, hfaults, hphase, -⟩ := s.finish_frame
    exact ⟨s.finish, execFinal_of_open s hopen, hphase, hfaults⟩

/-- A served write of a command's word runs that command. -/
theorem step_of_decode {s : State} {w : Word} {i : Instr} {rest : List Event}
    (hi : s.inputs = .access (commandWrite s.base w) :: rest) (hd : decode w = .command i) :
    step s = exec i { s with inputs := rest, responses := s.responses ++ [.done] } := by
  rw [step_command s w rest hi, executeWord, hd]
  rfl

theorem withFetchWord_encode (s : State) (i : Instr) : s.withFetchWord 32 (encode i).toNat =
    s.setInputs (.access (commandWrite s.base (encode i)) :: s.inputs) := by
  rw [State.withFetchWord, Nat.mod_eq_of_lt (encode i).isLt, BitVec.ofNat_toNat, BitVec.setWidth_eq]

/-- Settles O29: the word of `withFetchWord` is the command's encoding, and is next to be served. -/
theorem stepRunsDecodedCommand : Obligations.StepRunsDecodedCommand := by
  refine ⟨fun s w i rest => step_of_decode, fun s i => ?_⟩
  rw [withFetchWord_encode, step_of_decode (State.setInputs_inputs s _) (decode_encode i)]
  rfl

end Sys2Proof.Machine
end

section
/-! FINAL's tail (42_commands.md R81 to R84): its parts, and the one or two blocks they make. -/

namespace Sys2Proof.Machine

theorem finalTail_length_eq {buf : Memory} (L : Count) (hw : Memory.wf buf = true) :
    (finalTail buf L).length = if buf.length < 56 then 64 else 128 := by
  have hlt := of_decide_eq_true hw
  rw [finalTail_length, padZeros]
  split <;> omega

/-- The tail as the four parts of R81 and R83. -/
theorem finalTail_eq (buf : Memory) (L : Count) :
    finalTail buf L = buf ++ 0x80#8 :: (zeros (padZeros buf.length) ++ bytesBe64 L) := by
  simp [finalTail, paddedTail]

theorem finalTail_oneBlock {buf : Memory} (L : Count) (hs : buf.length < 56) :
    finalTail buf L = buf ++ [0x80#8] ++ zeros (55 - buf.length) ++ bytesBe64 L := by
  rw [finalTail, paddedTail, padZeros, if_pos hs]

/-- The zeros of a tail of two blocks go over from the first block to the second. -/
theorem finalTail_twoBlocks {buf : Memory} (L : Count) (hw : Memory.wf buf = true) (hs : 56 ≤ buf.length) :
    finalTail buf L = (buf ++ [0x80#8] ++ zeros (63 - buf.length)) ++ (zeros 56 ++ bytesBe64 L) := by
  have hlt := of_decide_eq_true hw
  have hz : padZeros buf.length = (63 - buf.length) + 56 := by rw [padZeros, if_neg (by omega)]; omega
  rw [finalTail, paddedTail, hz, zeros, List.replicate_add]
  simp only [zeros, List.append_assoc]

/-- Settles O21: the parts of the tail, each found by the length of those before it. -/
theorem tailFillsWholeBlocks : Obligations.TailFillsWholeBlocks := by
  refine fun buf L hw => ⟨finalTail_length_eq L hw, ?pending, ?marker, fun j hj hz => ?zeros, ?bitLength⟩
  case pending => rw [finalTail_eq, List.take_left]
  case marker => simp [finalTail_eq]
  case zeros =>
    rw [finalTail_length] at hz
    obtain ⟨k, rfl⟩ : ∃ k, j = buf.length + (k + 1) := ⟨j - buf.length - 1, by omega⟩
    have hk : k < padZeros buf.length := by omega
    rw [finalTail_eq, List.getElem?_append_right (by omega), Nat.add_sub_cancel_left, List.getElem?_cons_succ,
      List.getElem?_append_left (by rwa [zeros_length]), zeros, List.getElem?_replicate_of_lt hk]
  case bitLength =>
    refine List.drop_left' (l₁ := paddedTail buf) ?_
    rw [finalTail, List.length_append, bytesBe64_length, Nat.add_sub_cancel]

/-- Settles O20: all that FINAL writes, with H from the tail's one or two blocks. -/
theorem finalPadsAndCompresses : Obligations.FinalPadsAndCompresses := by
  intro s hp hw
  have hacc : s.finish.h = if s.buf.length < 56 then
      compress s.h (s.buf ++ [0x80#8] ++ zeros (55 - s.buf.length) ++ bytesBe64 s.countTail.bitlen)
    else compress (compress s.h (s.buf ++ [0x80#8] ++ zeros (63 - s.buf.length)))
      (zeros 56 ++ bytesBe64 s.countTail.bitlen) := by
    split
    next hs => rw [(finish_h_oneBlock hs).2, finalTail_oneBlock _ hs]
    next hs =>
      have hfirst : (s.buf ++ [0x80#8] ++ zeros (63 - s.buf.length)).length = 64 := by
        have hlt := of_decide_eq_true hw
        simp only [List.length_append, List.length_singleton, zeros_length]; omega
      rw [(finish_h_twoBlocks hw (by omega)).2, finalTail_twoBlocks _ hw (by omega), List.take_left' hfirst,
        List.drop_left' hfirst]
  have hfinish : s.finish = { s with h := s.finish.h, bitlen := s.countTail.bitlen, buf := [], phase := .finalized } := by
    rw [State.finish_eq s hw, State.countTail, State.addBits_eq]
  rw [exec_eq_after, after_final_of_open hp, hfinish, hacc, State.countTail, State.addBits_eq]
  rfl

end Sys2Proof.Machine
end

section
/-! A byte sequence absorbed before FINAL (42_commands.md R79): the engine is where the whole sequence, BUF's bytes first,
puts it, however it came. HASH is then the Fresh state that absorbs the message, and FINAL (R86, R88). -/

namespace Sys2Proof.Machine

/-- The elements after the whole blocks of `m` are compressed: `m` is what is pending, followed by the bytes absorbed. -/
def State.digesting (s : State) (m : List Byte) : State :=
  { s with h := hashBlocks (m.length / 64) s.h m
           buf := m.drop (64 * (m.length / 64))
           bitlen := s.bitlen + BitVec.ofNat 64 (512 * (m.length / 64)) }

theorem State.digesting_buf_length (s : State) (m : List Byte) : (s.digesting m).buf.length = m.length % 64 := by
  rw [State.digesting, List.length_drop]; omega

/-- A canonical BUF holds no whole block. -/
theorem State.digesting_buf {s : State} (hw : Memory.wf s.buf = true) : s.digesting s.buf = s := by
  have hq : s.buf.length / 64 = 0 := Nat.div_eq_of_lt (of_decide_eq_true hw)
  simp [State.digesting, hq, hashBlocks]

theorem State.digesting_setPhase (s : State) (m : List Byte) (p : Phase) :
    (s.digesting m).setPhase p = (s.setPhase p).digesting m := rfl

/-- One more byte, whether it fills a block or not. -/
theorem State.appendByte_digesting (s : State) (m : List Byte) (d : Byte) :
    (s.digesting m).appendByte d = s.digesting (m ++ [d]) := by
  have hlen := State.digesting_buf_length s m
  have hle : 64 * (m.length / 64) ≤ m.length := by omega
  have hbuf : (s.digesting m).buf ++ [d] = (m ++ [d]).drop (64 * (m.length / 64)) :=
    (List.drop_append_of_le_length hle).symm
  have hacc : (s.digesting m).h = hashBlocks (m.length / 64) s.h (m ++ [d]) := (hashBlocks_append _ _ _ _ hle).symm
  by_cases hl : (s.digesting m).buf.length = 63
  · have hq : (m ++ [d]).length / 64 = m.length / 64 + 1 := by rw [List.length_append, List.length_singleton]; omega
    have hblock : ((m ++ [d]).drop (64 * (m.length / 64))).take 64 = (s.digesting m).buf ++ [d] := by
      rw [hbuf, List.take_of_length_le (by rw [← hbuf]; simp [hl])]
    have hrest : (m ++ [d]).drop (64 * (m.length / 64 + 1)) = [] :=
      List.drop_of_length_le (by rw [List.length_append, List.length_singleton]; omega)
    conv_rhs => rw [State.digesting, hq, hashBlocks_succ, hblock, ← hacc, hrest, Nat.mul_add, BitVec.ofNat_add,
      ← BitVec.add_assoc]
    exact State.appendByte_full _ d hl
  · have hq : (m ++ [d]).length / 64 = m.length / 64 := by rw [List.length_append, List.length_singleton]; omega
    conv_rhs => rw [State.digesting, hq, ← hacc, ← hbuf]
    exact State.appendByte_notFull _ d hl

/-- Absorbing a sequence: by induction on its last byte. -/
theorem afterAll_absorbCommands {s : State} (hp : s.phase ≠ .finalized) (hw : Memory.wf s.buf = true)
    (bytes : List Byte) : afterAll (absorbCommands bytes) s =
      (s.digesting (s.buf ++ bytes)).setPhase (if bytes = [] then s.phase else .absorbing) := by
  induction bytes using List.reverseRecOn with
  | nil => rw [List.append_nil, State.digesting_buf hw]; rfl
  | append_singleton bytes d ih =>
    have hopen : ((s.digesting (s.buf ++ bytes)).setPhase (if bytes = [] then s.phase else .absorbing)).phase ≠
        .finalized := by rw [State.setPhase_phase]; split <;> simp [hp]
    have hlast : absorbCommands (bytes ++ [d]) = absorbCommands bytes ++ [.absorb d] := List.map_append
    rw [if_neg (by simp), hlast, afterAll_append, ih, afterAll_cons, afterAll_nil, after_absorb_of_open d hopen,
      State.digesting_setPhase, State.appendByte_digesting, ← List.append_assoc]
    rfl

theorem absorbCommands_flatten (chunks : List (List Byte)) :
    (chunks.map absorbCommands).flatten = absorbCommands chunks.flatten :=
  List.map_flatten.symm

/-- Settles O24: the commands of the chunks are those of the whole sequence. -/
theorem absorbingASequence : Obligations.AbsorbingASequence := by
  intro s chunks hp hw
  rw [absorbCommands_flatten]
  exact ⟨_, execAll_eq_afterAll _ s, execAll_eq_afterAll _ s, afterAll_absorbCommands hp hw chunks.flatten⟩

/-- FINAL on a state that holds `m`: its H, BUF and BITLEN are those of the finalized message. -/
theorem finish_eq_of_holds {s : State} {m : List Byte} (hs : s.Holds m) (hp : s.phase ≠ .finalized) :
    s.finish = { s with h := sha256 m, buf := [], bitlen := BitVec.ofNat 64 (8 * m.length), phase := .finalized } := by
  have hfinal := finish_holds hs hp
  obtain ⟨-, -, hphase, -⟩ := s.finish_frame
  rw [← hfinal.digest hphase, ← hfinal.total hphase, ← hphase, State.finish_eq s (hs.wf hp)]

/-- HASH of a message, from every state. -/
theorem afterAll_hashCommands (s : State) (m : List Byte) : afterAll (hashCommands m) s =
    { s with h := sha256 m, buf := [], bitlen := BitVec.ofNat 64 (8 * m.length), phase := .finalized,
             errMisuse := false, errIllegal := false, cause := 0#4 } := by
  have hphase : (if m = [] then Phase.fresh else .absorbing) ≠ .finalized := by split <;> simp
  have habsorbed : afterAll (absorbCommands m) s.makeFresh =
      (s.makeFresh.digesting m).setPhase (if m = [] then .fresh else .absorbing) :=
    afterAll_absorbCommands (by simp [State.makeFresh_eq]) Memory.wf_nil m
  have hholds : ((s.makeFresh.digesting m).setPhase (if m = [] then .fresh else .absorbing)).Holds m :=
    State.holds_of_open hphase rfl rfl (BitVec.zero_add _) (by by_cases hm : m = [] <;> simp [hm])
  rw [hashCommands, afterAll_cons, afterAll_append, afterAll_cons, afterAll_nil,
    show after .init s = s.makeFresh from rfl, habsorbed, after_final_of_open hphase, finish_eq_of_holds hholds hphase]
  rfl

theorem accumulatorBytes_length (H : Accumulator) : (accumulatorBytes H).length = 32 := by
  simp [accumulatorBytes, bytesOfWords, accumulatorWords, List.length_flatten, Function.comp_def]

/-- Settles O25: HASH's state in full, and its registers. -/
theorem hashComputesSha256 : Obligations.HashComputesSha256 := fun s m =>
  ⟨_, execAll_eq_afterAll _ s, afterAll_hashCommands s m,
    by rw [afterAll_hashCommands]; exact status_eq_phase_code rfl rfl rfl rfl, accumulatorBytes_length _⟩

/-- Settles O26: no element after HASH depends on the state before it. -/
theorem sameMessageSameDigest : Obligations.SameMessageSameDigest := by
  intro s t s' t' m hs ht
  cases (execAll_eq_afterAll _ s).symm.trans hs
  cases (execAll_eq_afterAll _ t).symm.trans ht
  rw [afterAll_hashCommands, afterAll_hashCommands]
  exact ⟨⟨rfl, rfl, rfl, rfl, rfl, rfl, rfl⟩, rfl⟩

end Sys2Proof.Machine
end

section
/-! The host's use of the engine (42_commands.md R88, 43_bus_access.md R90 and R98): a run of command writes and a run of
reads, each as the state it makes and the answers it gives; HASH, RD STATUS and RDDIGEST are one of each. -/

namespace Sys2Proof.Machine

/-- The state with events taken until only `rest` is to be served, and `answers` given to them. -/
def State.served (s : State) (rest : List Event) (answers : List Response) : State :=
  { s with inputs := rest, responses := s.responses ++ answers }

@[simp] theorem State.served_inputs (s : State) (rest : List Event) (l : List Response) :
    (s.served rest l).inputs = rest := rfl

@[simp] theorem State.served_responses (s : State) (rest : List Event) (l : List Response) :
    (s.served rest l).responses = s.responses ++ l := rfl

@[simp] theorem State.served_base (s : State) (rest : List Event) (l : List Response) :
    (s.served rest l).base = s.base := rfl

theorem State.served_of_inputs {s : State} {rest : List Event} (hi : s.inputs = rest) : s.served rest [] = s := by
  subst hi
  simp [State.served]

@[simp] theorem State.served_served (s : State) (rest rest' : List Event) (l l' : List Response) :
    (s.served rest l).served rest' l' = s.served rest' (l ++ l') := by
  simp [State.served]

/-- What is read does not depend on what has been served. -/
@[simp] theorem State.readRegister_served (s : State) (rest : List Event) (l : List Response) (r : Register) :
    (s.served rest l).readRegister r = s.readRegister r := by
  cases r <;> rfl

theorem State.readRegister_setInputs (s : State) (rest : List Event) (r : Register) :
    (s.setInputs rest).readRegister r = s.readRegister r := by
  cases r <;> rfl

/-- Nor does a command's effect. -/
theorem after_comm_served (i : Instr) (s : State) (rest : List Event) (l : List Response) :
    after i (s.served rest l) = (after i s).served rest l := by
  obtain ⟨hslot, -, hresponses⟩ := after_sameOutside i s
  refine (after_congr i s s.baseSlot rest (s.responses ++ l)).trans ?_
  rw [hslot, hresponses]
  rfl

theorem afterAll_comm_served (is : List Instr) (s : State) (rest : List Event) (l : List Response) :
    afterAll is (s.served rest l) = (afterAll is s).served rest l := by
  induction is generalizing s with
  | nil => rfl
  | cons i is ih => rw [afterAll_cons, after_comm_served, ih, afterAll_cons]

@[simp] theorem after_base (i : Instr) (s : State) : (after i s).base = s.base := by
  obtain ⟨hslot, -, -⟩ := after_sameOutside i s
  rw [State.base, ← hslot, State.base]

@[simp] theorem afterAll_base (is : List Instr) (s : State) : (afterAll is s).base = s.base := by
  induction is generalizing s with
  | nil => rfl
  | cons i is ih => rw [afterAll_cons, ih, after_base]

/-! ## Runs of one kind of access -/

theorem step_commandAccess {s : State} {i : Instr} {rest : List Event}
    (hi : s.inputs = .access (commandAccess s.base i) :: rest) : step s = .next ((after i s).served rest [.done]) := by
  rw [← after_comm_served, ← exec_eq_after]
  exact step_of_decode hi (decode_encode i)

/-- Command writes are served in order, each answered with its completion. -/
theorem runSteps_commands {s : State} {rest : List Event} (n : Nat) (is : List Instr)
    (hi : s.inputs = is.map (fun i => .access (commandAccess s.base i)) ++ rest) :
    runSteps (is.length + n) s = runSteps n ((afterAll is s).served rest (List.replicate is.length .done)) := by
  induction is generalizing s with
  | nil => rw [List.length_nil, Nat.zero_add, afterAll_nil, List.replicate_zero, State.served_of_inputs (rest := rest) hi]
  | cons i is ih =>
    rw [List.length_cons, Nat.add_right_comm, runSteps, step_commandAccess hi]
    refine (ih (by simp)).trans ?_
    rw [afterAll_comm_served, State.served_served, afterAll_cons]
    rfl

/-- The access that reads the register at an offset of the window. -/
def offsetRead (base off : Nat) : Access := .read (base + off) 4

theorem step_read {s : State} {off : Nat} {rest : List Event} (hlt : off < 64) (hal : off % 4 = 0)
    (hi : s.inputs = .access (offsetRead s.base off) :: rest) :
    step s = .next (s.served rest [.data (s.readRegister (registerAt off))]) := by
  refine (step_access s _ rest hi).trans ((serveAccess_read (s.setInputs rest) off hlt hal).trans ?_)
  rw [State.readRegister_setInputs]
  rfl

/-- Reads are served in order, each answered with its register's value, and change nothing else. -/
theorem runSteps_reads {s : State} (offs : List Nat) (hoffs : ∀ off ∈ offs, off < 64 ∧ off % 4 = 0)
    (hi : s.inputs = offs.map fun off => .access (offsetRead s.base off)) :
    runSteps offs.length s =
      .next (s.served [] (offs.map fun off => .data (s.readRegister (registerAt off)))) := by
  induction offs generalizing s with
  | nil => rw [List.length_nil, runSteps, List.map_nil, State.served_of_inputs (rest := []) hi]
  | cons off offs ih =>
    obtain ⟨⟨hlt, hal⟩, hrest⟩ := List.forall_mem_cons.1 hoffs
    rw [List.length_cons, runSteps, step_read hlt hal hi]
    refine (ih hrest rfl).trans ?_
    simp

/-- A host's commands and then its reads, run to the end. -/
theorem runInputs_commands_reads {s : State} (is : List Instr) (offs : List Nat)
    (hoffs : ∀ off ∈ offs, off < 64 ∧ off % 4 = 0)
    (hi : s.inputs = (is.map (commandAccess s.base) ++ offs.map (offsetRead s.base)).map .access) :
    runInputs s = .next ((afterAll is s).served [] (List.replicate is.length .done ++
      offs.map fun off => .data ((afterAll is s).readRegister (registerAt off)))) := by
  have hinputs : s.inputs = is.map (fun i => .access (commandAccess s.base i)) ++
      offs.map (fun off => .access (offsetRead s.base off)) := by
    rw [hi, List.map_append, List.map_map, List.map_map]; rfl
  have hlength : s.inputs.length = is.length + offs.length := by simp [hinputs]
  rw [runInputs, hlength, runSteps_commands offs.length is hinputs, runSteps_reads offs hoffs (by simp)]
  simp

/-! ## The values read -/

theorem readValues_append (l l' : List Response) : readValues (l ++ l') = readValues l ++ readValues l' := by
  induction l with
  | nil => rfl
  | cons r l ih => cases r <;> simp [readValues, ih]

theorem readValues_replicate_done (n : Nat) : readValues (List.replicate n .done) = [] := by
  induction n with
  | zero => rfl
  | succ n ih => rw [List.replicate_succ, readValues, ih]

theorem readValues_map_data {α : Type} (f : α → Word) (l : List α) :
    readValues (l.map fun x => .data (f x)) = l.map f := by
  induction l with
  | nil => rfl
  | cons x l ih => rw [List.map_cons, readValues, ih, List.map_cons]

/-- The offsets that the lines RD STATUS and RDDIGEST read. -/
def resultOffsets : List Nat := 0x04 :: [0, 1, 2, 3, 4, 5, 6, 7].map fun i : Fin 8 => 0x20 + 4 * i.val

theorem resultOffsets_admitted : ∀ off ∈ resultOffsets, off < 64 ∧ off % 4 = 0 := by decide

theorem registerAt_digest : ∀ i : Fin 8, registerAt (0x20 + 4 * i.val) = .digest i := by decide

theorem accumulatorWords_eq (H : Accumulator) :
    accumulatorWords H = [0, 1, 2, 3, 4, 5, 6, 7].map fun i : Fin 8 => H[i] := by
  have hall : [0, 1, 2, 3, 4, 5, 6, 7] = List.finRange 8 := by decide
  rw [hall]
  apply List.ext_getElem <;> simp [accumulatorWords]

/-- In FINALIZED those offsets show STATUS and the digest. -/
theorem readRegister_resultOffsets {s : State} (hp : s.phase = .finalized) :
    resultOffsets.map (fun off => s.readRegister (registerAt off)) = s.status :: accumulatorWords s.h := by
  simp only [resultOffsets, List.map_cons, List.map_map, Function.comp_def, registerAt_digest, State.readRegister,
    digestWord_of_finalized hp, accumulatorWords_eq]
  rfl

/-- The accesses of the three lines: command writes and then reads. -/
theorem hostAccesses_hash_read (base : Nat) (m : List Byte) :
    hostAccesses base [.hash m, .readStatus, .readWholeDigest] =
      (hashCommands m).map (commandAccess base) ++ resultOffsets.map (offsetRead base) := by
  simp [hostAccesses, HostLine.accesses, resultOffsets, offsetRead, statusRead, digestReads, digestRead]

/-- Settles O40: the writes leave the finalized message, whose STATUS and digest the reads then show. -/
theorem hostReadsTheDigest : Obligations.HostReadsTheDigest := by
  intro s m hi
  rw [hostAccesses_hash_read] at hi
  have hrun := runInputs_commands_reads _ _ resultOffsets_admitted hi
  rw [afterAll_hashCommands] at hrun
  refine ⟨_, hrun, rfl, rfl, ?values, ?count⟩
  case values =>
    rw [State.served_responses, readValues_append, readValues_append, readValues_replicate_done, readValues_map_data,
      readRegister_resultOffsets rfl, status_eq_phase_code rfl rfl rfl rfl]
    rfl
  case count => simp [hashCommands, absorbCommands, resultOffsets]; omega

end Sys2Proof.Machine
end

section
/-! Host register accesses (43_bus_access.md R89 to R97): what a step makes of its state by how the access is taken (elsewhere,
refused with a bus error, a read, an ignored write, a write to CMD), as the state `served` with the answer it gives. -/

namespace Sys2Proof.Machine

theorem State.SameEngine.symm {s t : State} (h : s.SameEngine t) : t.SameEngine s := by
  obtain ⟨hh, hb, hl, hp, hm, hi, hc⟩ := h
  exact ⟨hh.symm, hb.symm, hl.symm, hp.symm, hm.symm, hi.symm, hc.symm⟩

/-- Taking events and answering them touches no element of 10_state.md R13. -/
theorem State.sameEngine_served (s : State) (rest : List Event) (l : List Response) : s.SameEngine (s.served rest l) :=
  s.sameEngine_outside _ _ _

/-! ## Commands and the model's own fields -/

/-- Executing a word answers a next state and touches none of the model's own fields. -/
theorem executeWord_sameOutside (w : Word) (s : State) : ∃ t, executeWord w s = .next t ∧ s.SameOutside t := by
  obtain ⟨i, -, he⟩ | ⟨why, -, he⟩ := executeWord_cases w s
  · exact ⟨_, he, after_sameOutside i s⟩
  · exact ⟨_, he, (s.raise_frame _).1⟩

theorem writeRegister_sameOutside (r : Register) (v : Word) (s : State) :
    ∃ t, writeRegister r v s = .next t ∧ s.SameOutside t := by
  by_cases hr : r = .cmd
  · subst hr
    exact executeWord_sameOutside v s
  · exact ⟨s, writeRegister_of_ne_cmd r v s hr, rfl, rfl, rfl⟩

/-- Serving a write to CMD is executing its word, beside the event taken and its completion answered. -/
theorem step_commandWrite {s : State} {w : Word} {rest : List Event}
    (hi : s.inputs = .access (commandWrite s.base w) :: rest) :
    ∃ u : State, executeWord w s = .next u ∧
      step s = .next { u with baseSlot := s.baseSlot, inputs := rest, responses := s.responses ++ [.done] } := by
  obtain ⟨i, hd, he⟩ | ⟨why, hd, he⟩ := executeWord_cases w s
  · exact ⟨_, he, (step_of_decode hi hd).trans
      ((exec_eq_after i _).trans (congrArg _ (after_served i s rest)))⟩
  · refine ⟨_, he, (step_command s w rest hi).trans ?_⟩
    rw [executeWord, hd, raise_served]

/-- Settles O30: the write's step by lemma; of the other effects an event can have, only a reset's is on the engine. -/
theorem onlyCommandWritesChangeTheEngine : Obligations.OnlyCommandWritesChangeTheEngine := by
  refine ⟨fun s w rest hi => ?_, fun s t e rest hi h hne => ?_⟩
  · obtain ⟨u, hu, ht⟩ := step_commandWrite hi
    exact ⟨_, u, ht, hu, (u.sameEngine_outside _ _ _).symm⟩
  · obtain ⟨-, rfl⟩ | ⟨e', rest', u, new, hi', he, -, rfl⟩ := step_effect h
    · exact absurd (t.sameEngine_outside _ _ _) hne
    cases hi.symm.trans hi'
    cases he with
    | reset l => exact .inr ⟨l, rfl⟩
    | command i => exact .inl ⟨encode i, rfl⟩
    | illegal w why hd => exact .inl ⟨w, rfl⟩
    | quiet a ha => exact absurd (s.sameEngine_outside _ _ _) hne

/-! ## Every step and every run ends -/

/-- A step gives at most one answer and takes none back. -/
theorem step_responses {s t : State} (h : step s = .next t) :
    ∃ new : List Response, new.length ≤ 1 ∧ t.responses = s.responses ++ new := by
  obtain ⟨-, rfl⟩ | ⟨e, rest, u, new, -, -, hnew, rfl⟩ := step_effect h
  · exact ⟨[], by simp, by simp⟩
  · exact ⟨new, hnew, rfl⟩

/-- `n` steps answer a next state and serve the `n` oldest events. -/
theorem runSteps_serves (n : Nat) (s : State) : ∃ t, runSteps n s = .next t ∧ t.inputs = s.inputs.drop n := by
  induction n generalizing s with
  | zero => exact ⟨s, rfl, rfl⟩
  | succ n ih =>
    obtain ⟨t, ht⟩ := step_total s
    obtain ⟨-, hinputs⟩ := step_baseSlot_inputs ht
    obtain ⟨u, hu, hrest⟩ := ih t
    refine ⟨u, by rw [runSteps, ht]; exact hu, ?_⟩
    rw [hrest, hinputs, List.drop_tail]

/-- Settles O31: a step is total and takes one event, and a run has as many steps as events. -/
theorem everyAccessCompletes : Obligations.EveryAccessCompletes := by
  refine ⟨step_idle, fun s => ?_, fun s => ?_⟩
  · obtain ⟨t, ht⟩ := step_total s
    obtain ⟨-, hinputs⟩ := step_baseSlot_inputs ht
    exact ⟨t, ht, hinputs, step_responses ht⟩
  · obtain ⟨t, ht, hinputs⟩ := runSteps_serves s.inputs.length s
    exact ⟨t, ht, by rw [hinputs, List.drop_length]⟩

/-! ## Admission -/

theorem step_busError {s : State} {a : Access} {rest : List Event} (hi : s.inputs = .access a :: rest)
    (hw : a.inWindow s.base = true) (hn : a.nbytes ≠ 4 ∨ (a.addr - s.base) % 4 ≠ 0) :
    step s = .next (s.served rest [.busError]) :=
  (step_access s a rest hi).trans (serveAccess_busError a (s.setInputs rest) hw hn)

/-- An admitted access is answered once, with its data or its completion. -/
theorem step_of_admitted {s : State} {a : Access} {off : Nat} {rest : List Event} (hi : s.inputs = .access a :: rest)
    (hadm : a.admission s.base = .admitted off) :
    ∃ t, step s = .next t ∧ ∃ r : Response, r ≠ .busError ∧ t.responses = s.responses ++ [r] := by
  have hstep : step s = serveAdmitted a off (s.setInputs rest) := by
    rw [step_access s a rest hi, serveAccess, State.setInputs_base, hadm]
  cases a with
  | read addr n => exact ⟨_, hstep, .data ((s.setInputs rest).readRegister (registerAt off)), by simp, rfl⟩
  | write addr n v =>
    obtain ⟨t, ht, -, -, hresponses⟩ :=
      writeRegister_sameOutside (registerAt off) v ((s.setInputs rest).respond .done)
    exact ⟨t, hstep.trans ht, .done, by simp, hresponses.symm⟩

/-- Settles O32: an aligned access of width 4 cannot run past the window, so width and alignment decide. -/
theorem admissionOfAccesses : Obligations.AdmissionOfAccesses := by
  intro s a rest hi hlo hhi
  have hw : a.inWindow s.base = true := (inWindow_iff a s.base).2 ⟨hlo, hhi⟩
  refine ⟨fun hbad => ?_, fun hn hal => ?_⟩
  · have hn : a.nbytes ≠ 4 ∨ (a.addr - s.base) % 4 ≠ 0 := by omega
    exact ⟨_, step_busError hi hw hn, s.sameEngine_served _ _, rfl⟩
  · have hadm := admission_admitted a s.base hw hn hal
    exact ⟨hadm, step_of_admitted hi hadm⟩

/-- Settles O33: such an access is not to the window. -/
theorem accessesElsewhereHaveNoEffect : Obligations.AccessesElsewhereHaveNoEffect := by
  intro s a rest hi hout
  have hw : a.inWindow s.base = false := by
    rw [← Bool.not_eq_true, inWindow_iff]
    omega
  exact (step_access s a rest hi).trans (serveAccess_outside a (s.setInputs rest) hw)

/-! ## The registers by their offsets -/

theorem readRegister_registerAt (s : State) (off : Nat) : s.readRegister (registerAt off) =
    if off = 0x00 then 0x00000000#32
    else if off = 0x04 then s.status
    else if off < 0x20 then 0x00000000#32
    else s.digestWord (Fin.ofNat 8 ((off - 0x20) / 4)) := by
  simp only [registerAt, apply_ite s.readRegister]
  rfl

theorem digestWord_ofNat (s : State) {k : Nat} (hk : k < 8) : s.digestWord (Fin.ofNat 8 k) =
    if s.phase = .finalized then (accumulatorWords s.h).getD k 0#32 else 0x00000000#32 := by
  simp [State.digestWord, accumulatorWords, Nat.mod_eq_of_lt hk, hk]

theorem readRegister_reserved (s : State) {off : Nat} (hlo : 0x08 ≤ off) (hhi : off ≤ 0x1C) :
    s.readRegister (registerAt off) = 0x00000000#32 := by
  rw [readRegister_registerAt, if_neg (by omega), if_neg (by omega), if_pos (by omega)]

/-- A write of any register but CMD completes and does nothing. -/
theorem step_ignoredWrite {s : State} {off : Nat} {v : Word} {rest : List Event} (hpos : off ≠ 0) (hlt : off < 64)
    (hal : off % 4 = 0) (hi : s.inputs = .access (.write (s.base + off) 4 v) :: rest) :
    step s = .next (s.served rest [.done]) :=
  (step_access s _ rest hi).trans ((serveAccess_write (s.setInputs rest) off v hlt hal).trans
    (writeRegister_of_ne_cmd _ v _ (registerAt_ne_cmd off hpos)))

/-- Settles O34: the read's answer is its register's value. -/
theorem readsReturnRegisterValues : Obligations.ReadsReturnRegisterValues := by
  intro s off rest hlt hal hi
  refine ⟨_, step_read hlt hal hi, s.sameEngine_served _ _, ?_⟩
  rw [State.served_responses, readRegister_registerAt, digestWord_ofNat s (by omega)]

/-- Settles O35: no such offset is CMD's. -/
theorem readOnlyRegistersIgnoreWrites : Obligations.ReadOnlyRegistersIgnoreWrites := by
  intro s off v rest hoff hi
  exact ⟨_, step_ignoredWrite (by omega) (by omega) (by omega) hi, s.sameEngine_served _ _⟩

/-- Settles O36: the reserved register's value, and that it is not CMD. -/
theorem reservedOffsetsAreInert : Obligations.ReservedOffsetsAreInert := by
  refine fun s off v rest hlo hhi hal => ⟨fun hi => ?_, fun hi => ?_⟩
  · refine ⟨_, step_read (by omega) hal hi, s.sameEngine_served _ _, ?_⟩
    rw [State.served_responses, readRegister_reserved s hlo hhi]
  · exact ⟨_, step_ignoredWrite (by omega) (by omega) hal hi, s.sameEngine_served _ _⟩

end Sys2Proof.Machine
end

section
/-! The fault record (60_exceptions.md R99 to R103): what raising makes of it, that no command but INIT takes anything out of
it, and that H, BUF, BITLEN and PHASE after a command do not depend on it. -/

namespace Sys2Proof.Machine

/-- What is recorded in `s` is still recorded in `t` (R103): both flags, and the first fault's code. -/
def State.FaultsKept (s t : State) : Prop :=
  (s.errMisuse = true → t.errMisuse = true) ∧ (s.errIllegal = true → t.errIllegal = true) ∧
    (s.cause ≠ 0#4 → t.cause = s.cause)

theorem State.SameFaults.faultsKept {s t : State} (h : s.SameFaults t) : s.FaultsKept t := by
  obtain ⟨hm, hi, hc⟩ := h
  exact ⟨hm ▸ id, hi ▸ id, fun _ => hc.symm⟩

/-- The fault record does not depend on the model's own fields. -/
theorem State.sameFaults_outside (s : State) (b : Nat) (inp : List Event) (r : List Response) :
    s.SameFaults { s with baseSlot := b, inputs := inp, responses := r } := ⟨rfl, rfl, rfl⟩

theorem State.SameHash.symm {s t : State} (h : s.SameHash t) : t.SameHash s := by
  obtain ⟨hh, hb, hl, hp⟩ := h
  exact ⟨hh.symm, hb.symm, hl.symm, hp.symm⟩

theorem State.SameHash.trans {s t u : State} (h : s.SameHash t) (h' : t.SameHash u) : s.SameHash u := by
  obtain ⟨hh, hb, hl, hp⟩ := h
  obtain ⟨hh', hb', hl', hp'⟩ := h'
  exact ⟨hh.trans hh', hb.trans hb', hl.trans hl', hp.trans hp'⟩

theorem State.SameOutside.symm {s t : State} (h : s.SameOutside t) : t.SameOutside s := by
  obtain ⟨hslot, hin, hresp⟩ := h
  exact ⟨hslot.symm, hin.symm, hresp.symm⟩

theorem State.SameOutside.trans {s t u : State} (h : s.SameOutside t) (h' : t.SameOutside u) : s.SameOutside u := by
  obtain ⟨hslot, hin, hresp⟩ := h
  obtain ⟨hslot', hin', hresp'⟩ := h'
  exact ⟨hslot.trans hslot', hin.trans hin', hresp.trans hresp'⟩

/-! ## Raising a fault -/

theorem EngineFault.code_ne_zero (f : EngineFault) : f.code ≠ 0#4 := by
  cases f <;> decide

@[simp] theorem raise_errMisuse (s : State) (f : EngineFault) :
    (s.raise f).errMisuse = (s.errMisuse || decide (f ≠ .illegalCommand)) := by
  rw [State.raise_eq]

@[simp] theorem raise_errIllegal (s : State) (f : EngineFault) :
    (s.raise f).errIllegal = (s.errIllegal || decide (f = .illegalCommand)) := by
  rw [State.raise_eq]

theorem raise_cause (s : State) (f : EngineFault) : (s.raise f).cause = if s.cause = 0#4 then f.code else s.cause := by
  rw [State.raise_eq]

theorem raise_cause_of_ne_zero {s : State} (hc : s.cause ≠ 0#4) (f : EngineFault) : (s.raise f).cause = s.cause := by
  rw [raise_cause, if_neg hc]

/-- After a raise some fault is recorded. -/
theorem raise_cause_ne_zero (s : State) (f : EngineFault) : (s.raise f).cause ≠ 0#4 := by
  rw [raise_cause]
  split
  · exact f.code_ne_zero
  · assumption

theorem raise_faultsKept (s : State) (f : EngineFault) : s.FaultsKept (s.raise f) :=
  ⟨fun hm => by simp [hm], fun hi => by simp [hi], fun hc => raise_cause_of_ne_zero hc f⟩

/-- Settles O41: what `raise` writes by `raise_eq`, with the code of each fault. -/
theorem raiseRecordsTheFirstFault : Obligations.RaiseRecordsTheFirstFault := by
  intro s
  simp only [State.raise_eq]
  simp [EngineFault.code]

/-! ## Commands and the fault record -/

/-- In FINALIZED a command other than INIT raises its own misuse fault. -/
theorem after_misuse {s : State} {i : Instr} (hp : s.phase = .finalized) (hi : i ≠ .init) :
    after i s = s.raise (if i = .final then .finalAfterFinal else .absorbAfterFinal) := by
  cases i with
  | init => exact absurd rfl hi
  | absorb d => exact if_pos hp
  | final => exact if_pos hp

theorem after_faultsKept {s : State} {i : Instr} (hi : i ≠ .init) : s.FaultsKept (after i s) := by
  by_cases hp : s.phase = .finalized
  · obtain ⟨f, hf⟩ := after_of_finalized hp hi
    rw [hf]
    exact raise_faultsKept s f
  · exact (after_sameFaults hp hi).faultsKept

theorem appendByte_sameHash {s t : State} (h : s.SameHash t) (d : Byte) : (s.appendByte d).SameHash (t.appendByte d) := by
  obtain ⟨hh, hb, hl, hp⟩ := h
  by_cases hfull : s.buf.length = 63
  · rw [State.appendByte_full s d hfull, State.appendByte_full t d (hb ▸ hfull)]
    exact ⟨by rw [hh, hb], rfl, by rw [hl], hp⟩
  · rw [State.appendByte_notFull s d hfull, State.appendByte_notFull t d (hb ▸ hfull)]
    exact ⟨hh, by rw [hb], hl, hp⟩

theorem compressTail_sameHash {s t : State} (h : s.SameHash t) (tail : List Byte) :
    (s.compressTail tail).SameHash (t.compressTail tail) := by
  obtain ⟨hh, hb, hl, hp⟩ := h
  simp only [State.compressTail, State.compressBlock_eq, hh]
  split
  · exact ⟨rfl, hb, hl, hp⟩
  · exact ⟨rfl, hb, hl, hp⟩

theorem finish_sameHash {s t : State} (h : s.SameHash t) : s.finish.SameHash t.finish := by
  have hcount : s.countTail.SameHash t.countTail := by
    obtain ⟨hh, hb, hl, hp⟩ := h
    simp only [State.countTail, State.addBits_eq]
    exact ⟨hh, hb, by rw [hb, hl], hp⟩
  have htail : finalTail s.buf s.countTail.bitlen = finalTail t.buf t.countTail.bitlen := by
    obtain ⟨-, hb, -, -⟩ := h
    obtain ⟨-, -, hl, -⟩ := hcount
    rw [hb, hl]
  obtain ⟨hh, -, hl, -⟩ := compressTail_sameHash hcount (finalTail t.buf t.countTail.bitlen)
  rw [State.finish, State.finish, htail]
  exact ⟨hh, rfl, hl, rfl⟩

/-- A command makes of H, BUF, BITLEN and PHASE the same whatever the fault record is. -/
theorem after_sameHash_congr {s t : State} (h : s.SameHash t) (i : Instr) : (after i s).SameHash (after i t) := by
  have hphase := h.phase_eq
  by_cases hmisuse : s.phase = .finalized ∧ i ≠ .init
  · obtain ⟨hp, hi⟩ := hmisuse
    exact (after_sameHash hp hi).symm.trans (h.trans (after_sameHash (hphase ▸ hp) hi))
  cases i with
  | init => exact ⟨rfl, rfl, rfl, rfl⟩
  | absorb d =>
    have hopen : s.phase ≠ .finalized := by simpa using hmisuse
    obtain ⟨hh, hb, hl, -⟩ := appendByte_sameHash h d
    rw [after_absorb_of_open d hopen, after_absorb_of_open d (hphase ▸ hopen)]
    exact ⟨hh, hb, hl, rfl⟩
  | final =>
    have hopen : s.phase ≠ .finalized := by simpa using hmisuse
    rw [after_final_of_open hopen, after_final_of_open (hphase ▸ hopen)]
    exact finish_sameHash h

/-! ## Faulting words -/

theorem executeWord_of_instr? {w : Word} {i : Instr} (h : (decode w).instr? = some i) (s : State) :
    executeWord w s = .next (after i s) := by
  rw [executeWord, Decoded.instr?_eq_some_iff.1 h]
  exact exec_eq_after i s

/-- An illegal word, and in FINALIZED any word but INIT's, answers the state with a fault raised. -/
theorem executeWord_faulting {s : State} {w : Word}
    (h : (decode w).instr? = none ∨ (s.phase = .finalized ∧ (decode w).instr? ≠ some .init)) :
    ∃ f, executeWord w s = .next (s.raise f) := by
  cases hd : (decode w).instr? with
  | none => exact ⟨_, executeWord_illegal hd s⟩
  | some i =>
    obtain ⟨hp, hi⟩ : s.phase = .finalized ∧ i ≠ .init := by simpa [hd] using h
    exact ⟨_, (executeWord_of_instr? hd s).trans (congrArg _ (after_misuse hp hi))⟩

/-- Settles O42: by the frame of `raise`, and that no command's effect depends on the fault record. -/
theorem faultsArePrecise : Obligations.FaultsArePrecise := by
  refine ⟨fun s w h => ?_, fun s t f i h => ?_⟩
  · obtain ⟨f, hf⟩ := executeWord_faulting h
    obtain ⟨houtside, hhash⟩ := s.raise_frame f
    exact ⟨s.raise f, f, hf, rfl, hhash, houtside⟩
  · obtain rfl := eq_after_of_exec h
    obtain ⟨houtside, hhash⟩ := s.raise_frame f
    exact ⟨_, exec_eq_after i _, after_sameHash_congr hhash i,
      (after_sameOutside i s).symm.trans (houtside.trans (after_sameOutside i _))⟩

/-- Settles O43: each of the three checks by the lemma about it, and two raises in a row by `raise_cause_ne_zero`. -/
theorem faultPriority : Obligations.FaultPriority := by
  refine ⟨fun s a rest hi hw hn => ?admission, fun s w h => executeWord_illegal h s,
    fun s w i hd hp hi => ?phase, fun s f g => ⟨?cause, by simp, by simp⟩⟩
  case admission => exact ⟨_, step_busError hi hw hn, s.sameEngine_served _ _, rfl⟩
  case phase => rw [executeWord_of_instr? hd, after_misuse hp hi]
  case cause => exact raise_cause_of_ne_zero (raise_cause_ne_zero s f) g

/-! ## Steps and the fault record -/

/-- Settles O44: of what a step can serve, only INIT's word and a reset do not keep the record, and both make a Fresh state. -/
theorem faultRecordIsSticky : Obligations.FaultRecordIsSticky := by
  refine ⟨fun s t h hinit hreset => ?kept, fun s e rest hi he => ?cleared⟩
  case kept =>
    obtain ⟨-, rfl⟩ | ⟨e, rest, u, new, hi, he, -, rfl⟩ := step_effect h
    · exact (t.sameFaults_outside _ _ _).faultsKept
    suffices hkept : s.FaultsKept u from hkept
    cases he with
    | reset l => exact absurd hi (hreset l rest)
    | command i =>
      refine after_faultsKept ?_
      rintro rfl
      exact hinit rest hi
    | illegal w why hd => exact raise_faultsKept s .illegalCommand
    | quiet a ha => exact (s.sameFaults_outside _ _ _).faultsKept
  case cleared =>
    obtain rfl | ⟨l, rfl⟩ := he
    · exact ⟨_, step_commandAccess (i := .init) hi, rfl, rfl, rfl⟩
    · exact ⟨_, step_reset s l rest hi, rfl, rfl, rfl⟩

/-- Settles O45: before FINAL no command but INIT touches the record, and no access that is no write to CMD ever does. -/
theorem onlyFaultsAreRecorded : Obligations.OnlyFaultsAreRecorded := by
  intro s t e rest hi h hne
  obtain ⟨-, rfl⟩ | ⟨e', rest', u, new, hi', he, -, rfl⟩ := step_effect h
  · exact absurd (t.sameFaults_outside _ _ _) hne
  cases hi.symm.trans hi'
  have hfinalized {i : Instr} (hu : u = after i s) (hinit : i ≠ .init) : s.phase = .finalized := by
    by_contra hp
    subst hu
    exact hne (after_sameFaults hp hinit)
  cases he with
  | reset l => exact .inr (.inr (.inr (.inr ⟨l, rfl⟩)))
  | command i =>
    cases i with
    | init => exact .inr (.inr (.inr (.inl rfl)))
    | absorb d => exact .inr (.inl ⟨d, rfl, hfinalized rfl (by simp)⟩)
    | final => exact .inr (.inr (.inl ⟨rfl, hfinalized rfl (by simp)⟩))
  | illegal w why hd => exact .inl ⟨w, rfl, Decoded.instr?_eq_none_iff.2 ⟨why, hd⟩⟩
  | quiet a ha => exact absurd (s.sameFaults_outside _ _ _) hne

end Sys2Proof.Machine
end

section
/-! Several engines on one platform (60_exceptions.md R110): windows are 64 bytes at multiples of 64, so distinct ones
do not overlap. -/

namespace Sys2Proof.Machine

theorem State.present_of_inWindow {s : State} {a : Access} (h : a.inWindow s.base = true) :
    s.present a = { s with inputs := s.inputs ++ [.access a] } := if_pos h

theorem State.present_of_outside {s : State} {a : Access} (h : ¬a.inWindow s.base = true) : s.present a = s := if_neg h

/-- Two windows that hold one address are the same. -/
theorem baseSlot_eq_of_inWindow {s t : State} {a : Access} (hs : a.inWindow s.base = true)
    (ht : a.inWindow t.base = true) : s.baseSlot = t.baseSlot := by
  simp only [inWindow_iff, State.base, Config.windowBytes] at hs ht
  omega

/-- On a platform of distinct windows the window tells the engine. -/
theorem Platform.index_eq_of_baseSlot {p : Platform} (hp : p.windowsDistinct) {j k : Nat} {s t : State}
    (hj : p[j]? = some s) (hk : p[k]? = some t) (h : s.baseSlot = t.baseSlot) : j = k := by
  obtain ⟨hlt, -⟩ := List.getElem?_eq_some_iff.1 hj
  refine (List.getElem?_inj (by simpa using hlt) hp).1 ?_
  rw [List.getElem?_map, List.getElem?_map, hj, hk, Option.map_some, Option.map_some, h]

theorem Platform.present_getElem? (p : Platform) (a : Access) (j : Nat) :
    (p.present a)[j]? = p[j]?.map (State.present a) := List.getElem?_map

theorem Platform.stepAt_of_step {p : Platform} {k : Nat} {s t : State} (hk : p[k]? = some s) (h : step s = .next t) :
    p.stepAt k = .next (p.set k t) := by
  simp only [Platform.stepAt, hk, h]

/-- Settles O46: no two of the distinct windows hold the address, and a step replaces one entry of the platform's list. -/
theorem instancesAreIndependent : Obligations.InstancesAreIndependent := by
  refine ⟨fun p a k s hp hk hw => ⟨?reached, fun j hj => ?untouched⟩, fun p k s t hk h => ?step⟩
  case reached => rw [Platform.present_getElem?, hk, Option.map_some, State.present_of_inWindow hw]
  case untouched =>
    rw [Platform.present_getElem?]
    cases hs : p[j]? with
    | none => rfl
    | some t =>
      have hout : ¬a.inWindow t.base = true := fun ht =>
        hj (Platform.index_eq_of_baseSlot hp hs hk (baseSlot_eq_of_inWindow ht hw))
      rw [Option.map_some, State.present_of_outside hout]
  case step =>
    obtain ⟨hlt, -⟩ := List.getElem?_eq_some_iff.1 hk
    exact ⟨p.set k t, Platform.stepAt_of_step hk h, List.getElem?_set_self hlt,
      fun j hj => List.getElem?_set_ne hj.symm⟩

end Sys2Proof.Machine
end

section
/-! The reset input (70_reset_and_hazards.md R113, R114): it makes the Fresh state whatever the engine was doing. -/

namespace Sys2Proof.Machine

/-- The Fresh state is the reset state of 10_state.md R27, from whatever state it is made. -/
theorem State.makeFresh_sameEngine_reset (s : State) : s.makeFresh.SameEngine State.reset := by
  rw [State.SameEngine, s.makeFresh_eq]
  exact ⟨rfl, rfl, rfl, rfl, rfl, rfl, rfl⟩

/-- Settles O48: serving a reset and INIT both make the Fresh state. -/
theorem resetSetsEveryElement : Obligations.ResetSetsEveryElement :=
  ⟨fun s l rest hi => ⟨_, step_reset s l rest hi, State.makeFresh_sameEngine_reset _⟩,
    fun s => ⟨_, execInit_eq s, s.makeFresh_sameEngine_reset⟩⟩

/-- Settles O49: the access, whatever it does, leaves the reset next in line, and making the Fresh state writes none of the
model's own fields. -/
theorem resetAbandonsAccesses : Obligations.ResetAbandonsAccesses := by
  refine ⟨fun s a l rest hi => ?accessThenReset, fun s l rest hi => ?answersNothing⟩
  case accessThenReset =>
    obtain ⟨t, ht⟩ := step_total s
    have hnext : t.inputs = .reset l :: rest := by
      rw [(step_baseSlot_inputs ht).2, hi, List.tail_cons]
    exact ⟨t, _, ht, step_reset t l rest hnext, State.makeFresh_sameEngine_reset _⟩
  case answersNothing =>
    exact ⟨_, step_reset s l rest hi, rfl, rfl, rfl⟩

end Sys2Proof.Machine
end
